-- ==== Sys2Proof/Word.lean ====
section
/-!
DEFINITION. The word types of the engine: bytes, 32-bit words, table indices, and the three storage
spaces of `20_memory.md` (table P, table Q, the keystream buffer). 00 R10, R11: every value is unsigned.
-/

namespace Sys2Proof

/-- A byte, 8 bits (R10). -/
abbrev Byte := BitVec 8

/-- A word, 32 bits (R8 WORD, R10): a table entry, a keystream word, a command word. -/
abbrev Word := BitVec 32

/-- A table index, 10 bits (R8 LOGN, R41): arithmetic on it is arithmetic modulo N = 1024. -/
abbrev Index := BitVec 10

/-- A table: N = 1024 words (R21, R22, R41). -/
abbrev Table := Vector Word 1024

/-- The keystream buffer: 64 bytes (R26, R42). -/
abbrev Buffer := Vector Byte 64

/-- The contents of the three storage spaces together (R40): what a reset of any kind leaves unspecified
(R35, R170; U1, U2, U12) and erases no more than that (R184). -/
structure Storage where
  /-- table P (R21) -/
  p : Table
  /-- table Q (R22) -/
  q : Table
  /-- the keystream buffer KSBUF (R26) -/
  ksbuf : Buffer
  deriving DecidableEq, Repr, Inhabited

end Sys2Proof
end

