-- ==== Sys2Proof/Syntax.lean ====
section
/-!
DEFINITION. The commands of the engine: one constructor per row of `spec/opcode_table.json` (30 R62).
REFILL has no encoding (42 R121), so it is no command. The pseudo-commands of 30 R74 are in
`Machine/Assembler.lean`.
-/

namespace Sys2Proof

/-- A decoded command word (R70). The operands are byte counts read as unsigned numbers (R61). -/
inductive Instr where
  /-- INIT (R63, R80): KLEN = w[15:8] and IVLEN = w[23:16], the key's and the IV's byte counts. -/
  | init (klen ivlen : Nat)
  /-- STEP (R64, R110): no operand. -/
  | step
  /-- APPLY (R65, R130): LEN = w[31:16], the byte count of the input. -/
  | apply (len : Nat)
  deriving DecidableEq, Repr

end Sys2Proof
end

