-- ==== Sys2Proof/Config.lean ====
section
/-!
DEFINITION. What the spec leaves open. The free values are constants with no body: no claim can
evaluate one, so a claim that holds, holds for every value of it. The fixed parameters of 00 R8 are
in `Machine/Params.lean`.
-/

namespace Sys2Proof

/-- What P, Q and KSBUF hold after power-on: "any value" (R35, R170; U1, U2). DESIGN CHOICE, log 3. -/
opaque Config.powerOn : Storage

/-- What KSBUF holds after a successful INIT: "stale or undefined" (R88), any value (R35, U2), a draw no
claim can rely on. It may depend on what KSBUF held before, so its not being written (R88) is one of its
values; it does not depend on key or IV, of which INIT keeps no copy (R89). DESIGN CHOICE, log 21. -/
opaque Config.afterInit : Nat → Buffer → Buffer

/-- What P, Q and KSBUF hold after RST between transactions: "any value" (R35, R170; U1, U2), a draw no
claim can rely on. It may depend on what they held before, so their being kept (R184) is one of its values
and their being erased is never assumed. DESIGN CHOICE, log 4. -/
opaque Config.afterReset : Nat → Storage → Storage

/-- What P, Q and KSBUF hold after a command was abandoned by RST (R172): any value. It may depend on
the number of the draw, on what the spaces held before and on the abandoned transaction, so no claim
can rest on an old secret being kept, erased or mixed in. DESIGN CHOICE, log 5. -/
opaque Config.afterAbandon : Nat → Storage → Word → List Byte → Storage

/-- What P, Q and KSBUF hold after a loss of power (R163; U12): any value, which may depend on what
they held before. DESIGN CHOICE, log 6. -/
opaque Config.afterPowerLoss : Nat → Storage → Storage

/-- The two polarities an OPEN reset input may have (R171). -/
inductive Config.Polarity where
  | activeHigh
  | activeLow
  deriving DecidableEq, Repr, Inhabited

/-- OPEN parameter RST_POLARITY (R171, D15; U10). Nothing depends on it. -/
opaque Config.rstPolarity : Config.Polarity

/-- OPEN parameter RST_SYNC (R171, D15; U10): whether RST is synchronous to a clock. Nothing depends on it. -/
opaque Config.rstSync : Bool

/-- OPEN parameter ENGINE_BASE (R51, D23; U11). The spec assigns it no meaning. -/
opaque Config.engineBase : Nat

/-- The part of LATENCY above its least value (R181). -/
opaque Config.latencyExcess : Instr → Nat

/-- OPEN parameter LATENCY(command) (R181, D2; U9): finite and positive. No rule depends on it. -/
def Config.latency (i : Instr) : Nat := Config.latencyExcess i + 1

end Sys2Proof
end

