-- ==== Sys2Proof/WellFormed.lean ====
section
/-!
DEFINITION. Which commands a command word can express: each count fits its field (30 R61, R63, R65).
-/

namespace Sys2Proof

/-- KLEN and IVLEN are 8-bit counts, LEN a 16-bit count, at most MAX_APPLY = 65535 (R8, R61). The
required lengths of 32 bytes are no part of this: an INIT word with another KLEN decodes (R63). -/
def Instr.wellFormed : Instr → Bool
  | .init klen ivlen => decide (klen ≤ 255) && decide (ivlen ≤ 255)
  | .step => true
  | .apply len => decide (len ≤ 65535)

end Sys2Proof
end

