-- ==== Sys2Proof/Decode.lean ====
section
/-!
DEFINITION. The command word's format C32, the decoder (total on every 32-bit word) and the encoder
(30 R61 to R70), and the payload length a command word announces (30 R66).
-/

namespace Sys2Proof

/-- OPC = w[7:0] (R61). -/
def opcodeField (w : Word) : Byte := w.extractLsb' 0 8

/-- Field A = w[15:8] (R61): KLEN of INIT, reserved in STEP and APPLY. -/
def fieldA (w : Word) : Byte := w.extractLsb' 8 8

/-- Field B = w[23:16] (R61): IVLEN of INIT, reserved in STEP, LEN[7:0] of APPLY. -/
def fieldB (w : Word) : Byte := w.extractLsb' 16 8

/-- Field C = w[31:24] (R61): reserved in INIT and STEP, LEN[15:8] of APPLY. -/
def fieldC (w : Word) : Byte := w.extractLsb' 24 8

/-- LEN = w[31:16] of APPLY (R61). -/
def lenField (w : Word) : BitVec 16 := w.extractLsb' 16 16

/-- The opcodes of R62. -/
def opcInit : Byte := 0x01#8
/-- The opcode of STEP (R62). -/
def opcStep : Byte := 0x02#8
/-- The opcode of APPLY (R62). -/
def opcApply : Byte := 0x03#8

/-- Why a command word is illegal. -/
inductive Illegal where
  /-- its opcode is reserved: 0x00 or 0x04..0xFF (R68) -/
  | reservedOpcode
  /-- its opcode is valid and a reserved field is not zero (R69) -/
  | reservedBits
  deriving DecidableEq, Repr

/-- What a command word decodes to (R70): a command, or illegal with the reason. -/
inductive Decoded where
  | command (i : Instr)
  | illegal (why : Illegal)
  deriving DecidableEq, Repr

/-- The decoder of R70, total on every word. -/
def decode (w : Word) : Decoded :=
  if opcodeField w = opcInit then
    if fieldC w = 0 then .command (.init (fieldA w).toNat (fieldB w).toNat)
    else .illegal .reservedBits
  else if opcodeField w = opcStep then
    if fieldA w = 0 ∧ fieldB w = 0 ∧ fieldC w = 0 then .command .step
    else .illegal .reservedBits
  else if opcodeField w = opcApply then
    if fieldA w = 0 then .command (.apply (lenField w).toNat)
    else .illegal .reservedBits
  else .illegal .reservedOpcode

/-- The command word of a command, bit 31 first as R63, R64 and R65 print it. -/
def encode : Instr → Word
  | .init klen ivlen => 0x00#8 ++ BitVec.ofNat 8 ivlen ++ BitVec.ofNat 8 klen ++ opcInit
  | .step => 0x00#8 ++ 0x00#8 ++ 0x00#8 ++ opcStep
  | .apply len => BitVec.ofNat 16 len ++ 0x00#8 ++ opcApply

/-- How many payload bytes a command carries (R66). -/
def Instr.payloadLength : Instr → Nat
  | .init klen ivlen => klen + ivlen
  | .step => 0
  | .apply len => len

/-- How many payload bytes a command word announces: those of its command, none if it is illegal
(R66, R72: the decoder knows this from the word alone). -/
def payloadLength (w : Word) : Nat :=
  match decode w with
  | .command i => i.payloadLength
  | .illegal _ => 0

/-- The command word whose bits are the low `nbits` bits of `w`, bit 0 its least significant bit; the
bits above are 0. A command word is one 32-bit word (R72), so no byte order comes in (log 18). -/
def tableWord (nbits w : Nat) : Word := BitVec.ofNat 32 (w % 2 ^ nbits)

/-- The command the decoder reads from a word numbered as `spec/opcode_table.json` numbers it. -/
def decodeTableWord (nbits w : Nat) : Option Instr :=
  match decode (tableWord nbits w) with
  | .command i => some i
  | .illegal _ => none

end Sys2Proof
end

