-- ==== Sys2Proof/Machine/State.lean ====
section
/-!
DEFINITION. The State of one engine (10 R20), the host interface beside it (30 R60), the reasons a
step can stop, and the state after power-on (70 R170).
-/

namespace Sys2Proof.Machine

/-- The status a command ends with (60 R150). Its 8-bit code is `Status.code` of `Machine/Flags.lean`. -/
inductive Status where
  /-- the command completed -/
  | ok
  /-- INIT with KLEN other than 32 -/
  | invalidKeyLength
  /-- INIT with KLEN = 32 and IVLEN other than 32 -/
  | invalidIvLength
  /-- STEP or APPLY while READY = 0 -/
  | useBeforeInit
  /-- the command word decodes as illegal -/
  | illegalCommand
  deriving DecidableEq, Repr

/-- The DATA part of a response (30 R67). -/
inductive ResponseData where
  /-- INIT, and every response whose status is not OK -/
  | nothing
  /-- STEP: OutWord(v) -/
  | word (v : Word)
  /-- APPLY: OutByte(k, v) for k = 0 upward -/
  | bytes (vs : List Byte)
  deriving DecidableEq, Repr

/-- A response (STATUS, DATA), STATUS an 8-bit code (30 R67). -/
structure Response where
  status : Byte
  data : ResponseData
  deriving DecidableEq, Repr

/-- What the outside can do to the engine (70 R183). -/
inductive HostInput where
  /-- a transaction: the command word and its payload, byte 0 first (30 R60) -/
  | command (w : Word) (payload : List Byte)
  /-- a transaction during whose execution RST is asserted (70 R172) -/
  | commandAbandoned (w : Word) (payload : List Byte)
  /-- RST asserted between two transactions (70 R171) -/
  | reset
  /-- a loss of power (60 R163, U12) -/
  | powerLoss
  deriving DecidableEq, Repr

/-- The two tables by name. Which one is active is a function of CNT (10 R24), not state. -/
inductive TableName where
  | p
  | q
  deriving DecidableEq, Repr

/-- The State of one engine. The first six fields are 10 R20, "exactly the following state and nothing
else"; the rest is the model's own: the host's side of the interface and the counter of free draws. -/
structure State where
  /-- table P (R21) -/
  p : Table
  /-- table Q (R22) -/
  q : Table
  /-- CNT, the step counter, 11 bits (R23) -/
  cnt : BitVec 11
  /-- KSBUF, the keystream buffer (R26) -/
  ksbuf : Buffer
  /-- CUR, how many bytes of the buffer are consumed, 0..64 (R27); the type is the range, log 9 -/
  cur : Fin 65
  /-- READY, the lifecycle flag (R28) -/
  ready : Bool
  /-- MODEL: what the host sends from here on, oldest first (R60, R7), log 1 -/
  inbox : List HostInput
  /-- MODEL: the payload of the command being executed, read through InByte (R13, R43); empty between
  commands, log 1 -/
  payload : List Byte
  /-- MODEL: the responses the host has received, oldest first (R60). No meaning reads it (R32), log 16 -/
  outbox : List Response
  /-- MODEL: how many free draws were taken, by resets and by INIT, log 15 -/
  draws : Nat
  deriving DecidableEq, Repr

/-- Reasons the engine stops with a fault: none. "The engine has no trap mechanism" (60 R156); every
error is a status code of a response. DESIGN CHOICE, log 10 (safe: nothing raises a fault because the
spec names none). -/
inductive Fault where
  deriving DecidableEq, Repr

/-- Reasons a step is refused. -/
inductive Refusal where
  /-- Raised by an arm of `exec` whose instruction has no meaning yet; no arm is left so. Safe. -/
  | notModelled (mnemonic : String)
  /-- Raised for a transaction whose payload length differs from the length its command word announces
  (30 R71: "A model refuses it"). Raised by each command's meaning, by the answer to an illegal word and
  by an abandoned transaction. Safe: the run stops where the spec gives no behaviour. Log 7. -/
  | malformedTransaction
  deriving DecidableEq, Repr

/-- The engine after power-on (70 R170): READY = 0, CNT = 0, CUR = 64, and any contents of P, Q and
KSBUF (R35), which are the opaque draw `Config.powerOn` (log 3). The host has sent and received nothing
(log 1, log 2). -/
def State.reset : State where
  p := Config.powerOn.p
  q := Config.powerOn.q
  cnt := 0
  ksbuf := Config.powerOn.ksbuf
  cur := 64
  ready := false
  inbox := []
  payload := []
  outbox := []
  draws := 0

end Sys2Proof.Machine
end

