-- ==== Sys2Proof/Machine/Params.lean ====
section
/-!
DEFINITION. The fixed parameters of 00 R8. N, EXPAND_WORDS and WARMUP_STEPS are HC-256's, which the spec
marks as general knowledge (93 G2, G3, G5): UNVERIFIED, log 8. The types of `Word.lean` carry WORD, N,
LOGN and BUF_BYTES as literals.
-/

namespace Sys2Proof.Machine

/-- WORD: width in bits of a table entry and of a keystream word. -/
def wordBits : Nat := 32
/-- N: length of each table in words. -/
def tableLength : Nat := 1024
/-- LOGN: width of a table index. -/
def indexBits : Nat := 10
/-- PERIOD: period of the step counter. -/
def period : Nat := 2048
/-- KEY_BYTES: required key length in bytes. -/
def keyBytes : Nat := 32
/-- IV_BYTES: required IV length in bytes. -/
def ivBytes : Nat := 32
/-- BATCH_WORDS: steps per refill (C1). -/
def batchWords : Nat := 16
/-- BUF_BYTES: keystream buffer size. -/
def bufBytes : Nat := 64
/-- EXPAND_WORDS: length of the key-expansion array W. -/
def expandWords : Nat := 2560
/-- WARMUP_STEPS: steps run and discarded during INIT. -/
def warmUpSteps : Nat := 4096
/-- MAX_APPLY: largest byte count of one APPLY command. -/
def maxApply : Nat := 65535

end Sys2Proof.Machine
end

