-- ==== Sys2Proof/Machine/Ops.lean ====
section
/-!
DEFINITION. The named operations over the State: tables, buffer and control fields (00 R13's
primitives), the response to the host, the ONE way a command ends in an error (60 R152), taking a
command's payload (30 R66, R71), and the resets (70 R170 to R172).
-/

namespace Sys2Proof.Machine

/-- `T[i]`: read entry i of a table (R13, R49); a 10-bit index never falls outside (R41). -/
def tableRead (t : Table) (i : Index) : Word := t[i.toNat]'i.isLt

/-- `T[i] <- v`: write entry i of a table (R13, R49). -/
def tableWrite (t : Table) (i : Index) (v : Word) : Table := t.set i.toNat v i.isLt

/-- `KSBUF[i]`: read byte i of the buffer (R13); a 6-bit index never falls outside (R42). -/
def bufferRead (b : Buffer) (i : BitVec 6) : Byte := b[i.toNat]'i.isLt

/-- The other table of the pair. -/
def TableName.other : TableName → TableName
  | .p => .q
  | .q => .p

/-- The table a name stands for: indexing "by role, not by moving data" (R102). -/
def State.table (s : State) : TableName → Table
  | .p => s.p
  | .q => s.q

/-- Replace the table a name stands for. -/
def State.setTable (s : State) (n : TableName) (t : Table) : State :=
  match n with
  | .p => { s with p := t }
  | .q => { s with q := t }

/-- `CNT <- v` (R13). -/
def State.setCnt (s : State) (v : BitVec 11) : State := { s with cnt := v }

/-- `CUR <- v` (R13). -/
def State.setCur (s : State) (v : Fin 65) : State := { s with cur := v }

/-- `READY <- v` (R13). -/
def State.setReady (s : State) (v : Bool) : State := { s with ready := v }

/-- Write the whole buffer, as REFILL does (R26, R49). -/
def State.setKsbuf (s : State) (b : Buffer) : State := { s with ksbuf := b }

/-- Replace P, Q and KSBUF together: the storage of a free draw (R35; U1, U2, U12). -/
def State.setStorage (s : State) (x : Storage) : State :=
  { s with p := x.p, q := x.q, ksbuf := x.ksbuf }

/-- What P, Q and KSBUF hold. -/
def State.storage (s : State) : Storage := ⟨s.p, s.q, s.ksbuf⟩

/-- The host's inputs that are left once one is taken. -/
def State.setInbox (s : State) (l : List HostInput) : State := { s with inbox := l }

/-- The payload of the command that is about to be executed (R60). -/
def State.setPayload (s : State) (l : List Byte) : State := { s with payload := l }

/-- One more free draw is taken. -/
def State.countDraw (s : State) : State := { s with draws := s.draws + 1 }

/-- The free draw of a successful INIT (R35, R88; U2), log 21: KSBUF holds any value. -/
def State.drawKsbuf (s : State) : State :=
  (s.setKsbuf (Config.afterInit s.draws s.ksbuf)).countDraw

/-- Return a response to the host (R60, R67). -/
def State.send (s : State) (r : Response) : State := { s with outbox := s.outbox ++ [r] }

/-- The 8-bit status codes (R150). -/
def Status.code : Status → Byte
  | .ok => 0x00#8
  | .invalidKeyLength => 0x01#8
  | .invalidIvLength => 0x02#8
  | .useBeforeInit => 0x03#8
  | .illegalCommand => 0x04#8

/-- `respond(OK)` with the command's response data (R13, R67). -/
def respondOk (d : ResponseData) (s : State) : State := s.send ⟨Status.code .ok, d⟩

/-- `raise E` (R13): the command ends with the status of its error and no data, and no state is written
(R152). The one way every error is reported, the engine's counterpart of taking an exception (R156);
there is no return from it (R157). -/
def raiseError (e : Status) (s : State) : State := s.send ⟨e.code, .nothing⟩

/-- Execute a command that announces `n` payload bytes. The payload is read once and gone afterwards,
whether the command succeeds or fails (R89, R152). A payload of another length makes the transaction
malformed, and it is refused (R66, R71). -/
def withPayload (n : Nat) (s : State) (body : List Byte → State → State) :
    Host.Outcome State Fault Refusal :=
  if s.payload.length = n then .next (body s.payload (s.setPayload []))
  else .refused .malformedTransaction

/-- The answer to a command word that decodes as illegal: ILLEGAL_COMMAND, no data, no state change
(R160). Its transaction carries no payload (R66). -/
def answerIllegal (s : State) : Host.Outcome State Fault Refusal :=
  withPayload 0 s fun _ s => raiseError .illegalCommand s

/-- The inputs that reset the engine: RST between transactions (R171), RST during a command (R172)
and a loss of power (R163). -/
def HostInput.isReset : HostInput → Bool
  | .command _ _ => false
  | .commandAbandoned _ _ => true
  | .reset => true
  | .powerLoss => true

/-- The reset state (R170): READY = 0, CNT = 0, CUR = 64, and `x`, a free draw, in P, Q and KSBUF (R35).
The host's input and output are not the engine's to change; no command is being executed afterwards
(R172). The one way every reset ends. -/
def resetTo (x : Storage) (s : State) : State :=
  (((((s.setReady false).setCnt 0).setCur 64).setPayload []).setStorage x).countDraw

/-- RST between two transactions (R171), log 4. -/
def applyReset (s : State) : State := resetTo (Config.afterReset s.draws s.storage) s

/-- RST while a command is executed (R172): the command returns no response and leaves the reset state,
whatever it has written of P, Q and KSBUF (U1, U2), log 5. A transaction of the wrong length has no
behaviour and is refused (R71), log 7. -/
def abandonCommand (w : Word) (bytes : List Byte) (s : State) : Host.Outcome State Fault Refusal :=
  if bytes.length = payloadLength w then
    .next (resetTo (Config.afterAbandon s.draws s.storage w bytes) s)
  else .refused .malformedTransaction

/-- A loss of power is a reset (R163), whatever storage survives it (U12), log 6. -/
def losePower (s : State) : State := resetTo (Config.afterPowerLoss s.draws s.storage) s

end Sys2Proof.Machine
end

