-- ==== Sys2Proof/Machine/Flags.lean ====
section
/-!
DEFINITION. The engine's flags. It has no condition codes (10 R32): its only flag is READY (10 R28), and
which table is active is bit 10 of CNT (10 R24).
-/

namespace Sys2Proof.Machine

/-- The active table of a step taken at counter value CNT (R24, R102): P when CNT[10] = 0, Q when
CNT[10] = 1. UNVERIFIED that P is first: G11, log 8. -/
def activeTable (cnt : BitVec 11) : TableName := if cnt.getLsbD 10 then .q else .p

/-- The READY check of STEP and APPLY (R110, R130): USE_BEFORE_INIT while READY = 0, whatever the
operands (R153), and nothing else happens (R152). -/
def whenReady (s : State) (body : State → State) : State :=
  if s.ready then body s else raiseError .useBeforeInit s

/-- The length check of INIT, the key's length first (R81): the error to raise, if any. PRIORITY: R153. -/
def lengthError (klen ivlen : Nat) : Option Status :=
  if klen ≠ 32 then some .invalidKeyLength
  else if ivlen ≠ 32 then some .invalidIvLength
  else none

end Sys2Proof.Machine
end

