-- ==== Sys2Proof/Machine/Operands.lean ====
section
/-!
DEFINITION. Operand forms: the bytes of a word and words from bytes (00 R13, 20 R44 to R47), the key and
IV parts of INIT's payload (30 R66), and table indices (00 R12, 10 R25).
-/

namespace Sys2Proof.Machine

/-- `byte(v, n)`, byte n of a word, n = 0 the least significant (R13). -/
def byteOf (v : Word) (n : Nat) : Byte := v.extractLsb' (8 * n) 8

/-- `LE32(b0, b1, b2, b3)`, least significant byte first (R13). -/
def le32 (b0 b1 b2 b3 : Byte) : Word := b3 ++ b2 ++ b1 ++ b0

/-- Bytes to words, four at a time, little-endian (R45, R83). UNVERIFIED order: G12, log 8. -/
def unpackWords : List Byte → List Word
  | b0 :: b1 :: b2 :: b3 :: rest => le32 b0 b1 b2 b3 :: unpackWords rest
  | _ => []

/-- The key of an INIT payload: its first KLEN bytes (R66). -/
def keyPart (klen : Nat) (payload : List Byte) : List Byte := payload.take klen

/-- The IV of an INIT payload: the bytes after the key (R66). -/
def ivPart (klen : Nat) (payload : List Byte) : List Byte := payload.drop klen

/-- `j ⊟ k`, (j - k) mod N (R12). -/
def indexBack (j : Index) (k : Nat) : Index := j - BitVec.ofNat 10 k

/-- j = CNT[9:0], the table index of the next step (R25). -/
def stepIndex (cnt : BitVec 11) : Index := cnt.extractLsb' 0 10

/-- The 6-bit buffer index of a cursor below 64 (R26, R42). -/
def bufferIndex (cur : Fin 65) : BitVec 6 := BitVec.ofNat 6 cur.val

/-- The four bytes of a word, least significant first (R44). -/
def wordBytes (v : Word) : List Byte := [byteOf v 0, byteOf v 1, byteOf v 2, byteOf v 3]

/-- KSBUF after a refill of the words `ws` (R44): their bytes in generation order, so that
KSBUF[4k + n] = byte n of word k. The bytes of 16 words are exactly the 64 this takes. -/
def packBuffer (ws : List Word) : Buffer :=
  ⟨⟨List.takeD 64 (ws.flatMap wordBytes) 0⟩, List.takeD_length 64 (ws.flatMap wordBytes) 0⟩

end Sys2Proof.Machine
end

