-- ==== Sys2Proof/Machine/Nonlinear.lean ====
section
/-!
DEFINITION. The nonlinear functions of HC-256 (41 R100, R101, R103, R104). All their constants are
marked as general knowledge in the spec (93 G6 to G9): UNVERIFIED, log 8.
-/

namespace Sys2Proof.Machine

/-- f1 (R100), used by the key expansion. -/
def f1 (x : Word) : Word := x.rotateRight 7 ^^^ x.rotateRight 18 ^^^ (x >>> 3)

/-- f2 (R101), used by the key expansion. -/
def f2 (x : Word) : Word := x.rotateRight 17 ^^^ x.rotateRight 19 ^^^ (x >>> 10)

/-- g (R103), the feedback function: it reads one entry of the passive table `b`, at (x ^ y)[9:0]. -/
def g (b : Table) (x y : Word) : Word :=
  (x.rotateRight 10 ^^^ y.rotateRight 23) + tableRead b ((x ^^^ y).extractLsb' 0 10)

/-- The index `256 * quarter + byte` of a table (R104). -/
def quarterIndex (quarter : BitVec 2) (v : Byte) : Index := quarter ++ v

/-- h (R104), the output filter: one entry of each quarter of the passive table `b`, addressed by the
four bytes of `u`. -/
def h (b : Table) (u : Word) : Word :=
  tableRead b (quarterIndex 0 (byteOf u 0)) + tableRead b (quarterIndex 1 (byteOf u 1))
    + tableRead b (quarterIndex 2 (byteOf u 2)) + tableRead b (quarterIndex 3 (byteOf u 3))

end Sys2Proof.Machine
end

