-- ==== Sys2Proof/Machine/StepFunction.lean ====
section
/-!
DEFINITION. StepFunction (41): the step of R105 to R109, a run of steps, and the STEP command (R110).
-/

namespace Sys2Proof.Machine

/-- The new value of the active table's entry j (R106): old + a10 + g(x, y), everything read before the
write (R107). `a` is the active table, `b` the passive one. -/
def updateValue (a b : Table) (j : Index) : Word :=
  tableRead a j + tableRead a (indexBack j 10)
    + g b (tableRead a (indexBack j 3)) (tableRead a (indexBack j 1023))

/-- The output of the step at index j (R106): h(u) ^ A[j], `a` the active table after the write (R107). -/
def outputWord (a b : Table) (j : Index) : Word :=
  h b (tableRead a (indexBack j 12)) ^^^ tableRead a j

/-- step() (R106): write one entry of the active table, advance CNT modulo 2048, produce one word. It is
total: it has no error condition (R112). -/
def stepFunction (s : State) : State × Word :=
  let n := activeTable s.cnt
  let j := stepIndex s.cnt
  let a := tableWrite (s.table n) j (updateValue (s.table n) (s.table n.other) j)
  ((s.setTable n a).setCnt (s.cnt + 1), outputWord a (s.table n.other) j)

/-- `k` steps in a row and their output words, first step first (R87, R120). -/
def runSteps : Nat → State → State × List Word
  | 0, s => (s, [])
  | k + 1, s =>
    let r := stepFunction s
    let rs := runSteps k r.1
    (rs.1, r.2 :: rs.2)

/-- STEP (R110): USE_BEFORE_INIT while READY = 0, else one step and its word. KSBUF and CUR are neither
read nor written (R111). -/
def execStep (s : State) : Host.Outcome State Fault Refusal :=
  withPayload 0 s fun _ s => whenReady s fun s =>
    let r := stepFunction s
    respondOk (.word r.2) r.1

end Sys2Proof.Machine
end

