-- ==== Sys2Proof/Machine/Initializer.lean ====
section
/-!
DEFINITION. Initializer (40): key and IV expansion (R83, R84), table fill (R85), warm-up (R86, R87), the
end of INIT (R88), and the INIT command (R80). The recurrence, the offsets and the counts are HC-256's,
which the spec marks as general knowledge (93 G3 to G5): UNVERIFIED, log 8.
-/

namespace Sys2Proof.Machine

/-- The word written `d` places before the next one, in an array kept newest word first. From W[16] on
every word the recurrence names exists. -/
def wordBack (w : List Word) (d : Nat) : Word := w.getD (d - 1) 0

/-- W[i] of R84, from the array so far, newest word first:
f2(W[i-2]) + W[i-7] + f1(W[i-15]) + W[i-16] + i. -/
def expandWord (w : List Word) (i : Nat) : Word :=
  f2 (wordBack w 2) + wordBack w 7 + f1 (wordBack w 15) + wordBack w 16 + BitVec.ofNat 32 i

/-- Append `k` words from index `i` on, newest word first. -/
def expandFrom : Nat → Nat → List Word → List Word
  | 0, _, w => w
  | k + 1, i, w => expandFrom k (i + 1) (expandWord w i :: w)

/-- The array W of 2560 words (R84): the key's words, the IV's words, then the recurrence. -/
def expand (key iv : List Word) : List Word :=
  (expandFrom (expandWords - 16) 16 (key ++ iv).reverse).reverse

/-- A table filled from W at an offset (R85): entry i is W[i + offset]. W has every word this takes. -/
def fillTable (w : List Word) (offset : Nat) : Table :=
  ⟨⟨List.takeD 1024 (w.drop offset) 0⟩, List.takeD_length 1024 (w.drop offset) 0⟩

/-- P and Q filled from the key and the IV (R83 to R85), and CNT <- 0 (R86). -/
def fillTables (key iv : List Byte) (s : State) : State :=
  let w := expand (unpackWords key) (unpackWords iv)
  ((s.setTable .p (fillTable w 512)).setTable .q (fillTable w 1536)).setCnt 0

/-- INIT after its length check (R80): fill, warm up and discard the words (R87), then CNT <- 0,
CUR <- 64, READY <- 1, and KSBUF holds stale or undefined bytes (R88, R35). -/
def initEngine (key iv : List Byte) (s : State) : State :=
  ((((runSteps warmUpSteps (fillTables key iv s)).1.setCnt 0).setCur 64).setReady true).drawKsbuf

/-- INIT (R80): the length check of R81 raises INVALID_KEY_LENGTH or INVALID_IV_LENGTH and then writes
nothing (R82); otherwise the State is initialized. READY is not checked (R153). -/
def execInit (klen ivlen : Nat) (s : State) : Host.Outcome State Fault Refusal :=
  withPayload (klen + ivlen) s fun bytes s =>
    match lengthError klen ivlen with
    | some e => raiseError e s
    | none => respondOk .nothing (initEngine (keyPart klen bytes) (ivPart klen bytes) s)

end Sys2Proof.Machine
end

