-- ==== Sys2Proof/Machine/BatchGenerator.lean ====
section
/-!
DEFINITION. BatchGenerator (42): REFILL, an internal operation of APPLY (R121), no command.
-/

namespace Sys2Proof.Machine

/-- REFILL (R120): 16 steps, their words packed into KSBUF least significant byte first (R44), CUR <- 0. -/
def refill (s : State) : State :=
  let r := runSteps batchWords s
  (r.1.setKsbuf (packBuffer r.2)).setCur 0

end Sys2Proof.Machine
end

