-- ==== Sys2Proof/Machine/StreamCoder.lean ====
section
/-!
DEFINITION. StreamCoder (43): consuming the keystream byte by byte and the APPLY command (R130).
-/

namespace Sys2Proof.Machine

/-- CUR <- CUR + 1 (R131), on a cursor below 64. -/
def advanceCursor (cur : Fin 65) : Fin 65 := cur + 1

/-- Consume one keystream byte (R131): refill first when the buffer is exhausted (CUR = 64, R27, R121),
read KSBUF[CUR], advance CUR. -/
def takeByte (s : State) : State × Byte :=
  let s := if s.cur = 64 then refill s else s
  (s.setCur (advanceCursor s.cur), bufferRead s.ksbuf (bufferIndex s.cur))

/-- XOR each input byte, in order, with the next keystream byte (R130, R131). -/
def applyBytes : List Byte → State → State × List Byte
  | [], s => (s, [])
  | b :: bs, s =>
    let r := takeByte s
    let rs := applyBytes bs r.1
    (rs.1, (b ^^^ r.2) :: rs.2)

/-- APPLY (R130): USE_BEFORE_INIT while READY = 0, whatever LEN is; else LEN bytes of output. -/
def execApply (len : Nat) (s : State) : Host.Outcome State Fault Refusal :=
  withPayload len s fun bytes s => whenReady s fun s =>
    let r := applyBytes bytes s
    respondOk (.bytes r.2) r.1

end Sys2Proof.Machine
end

