-- ==== Sys2Proof/Machine/Dispatch.lean ====
section
/-! DEFINITION. One arm per command, each one direct call of its meaning. -/

namespace Sys2Proof.Machine

def exec (i : Instr) (s : State) : Host.Outcome State Fault Refusal :=
  match i with
  | .init klen ivlen => Sys2Proof.Machine.execInit klen ivlen s
  | .step => Sys2Proof.Machine.execStep s
  | .apply len => Sys2Proof.Machine.execApply len s

end Sys2Proof.Machine
end

