-- ==== Sys2Proof/Machine/Fetch.lean ====
section
/-!
DEFINITION. Taking the host's next input (30 R60): the engine fetches no instructions (10 R31), the
program is the sequence of commands the host issues. `step` of `Machine/Step.lean` only calls this.
-/

namespace Sys2Proof.Machine

/-- What the next host input asks of the engine. -/
inductive Fetched where
  /-- nothing is pending: the engine is idle (R163, R173) -/
  | idle
  /-- a decoded command, and the state with its payload in place -/
  | run (i : Instr) (s : State)
  /-- everything else is settled by an operation: an illegal word, a reset -/
  | settled (o : Host.Outcome State Fault Refusal)

/-- The payload of a transaction in place of the last one, the input taken from the inbox. -/
def receive (rest : List HostInput) (bytes : List Byte) (s : State) : State :=
  (s.setInbox rest).setPayload bytes

/-- Take the oldest input (R52: in the order the host issues them). -/
def fetch (s : State) : Fetched :=
  match s.inbox with
  | [] => .idle
  | .command w bytes :: rest =>
    match decode w with
    | .command i => .run i (receive rest bytes s)
    | .illegal _ => .settled (answerIllegal (receive rest bytes s))
  | .commandAbandoned w bytes :: rest => .settled (abandonCommand w bytes (s.setInbox rest))
  | .reset :: rest => .settled (.next (applyReset (s.setInbox rest)))
  | .powerLoss :: rest => .settled (.next (losePower (s.setInbox rest)))

/-- The host sends one more transaction ahead of everything else it has pending: the command word, with
the payload length it announces, all payload bytes zero. -/
def sendZeroPayload (w : Word) (s : State) : State :=
  s.setInbox (.command w (List.replicate (payloadLength w) 0) :: s.inbox)

end Sys2Proof.Machine
end

