-- ==== Sys2Proof/Machine/Step.lean ====
section
/-!
DEFINITION. One step of the engine: take the host's next input and serve it to completion (00 R7, 20 R50).
-/

namespace Sys2Proof.Machine

/-- One step. With nothing pending the engine is idle and keeps its State (60 R163), log 14. -/
def step (s : State) : Host.Outcome State Fault Refusal :=
  match fetch s with
  | .idle => .next s
  | .run i s' => exec i s'
  | .settled o => o

/-- `s` with the command word (bit 0 its least significant bit) and a payload of zeros, of the length
the word announces, as the host's next transaction, so that the next step runs it. Stands for the host
sending it (log 2). -/
def State.withFetchWord (s : State) (nbits w : Nat) : State := sendZeroPayload (tableWord nbits w) s

end Sys2Proof.Machine
end

