-- ==== Sys2Proof/Machine/Assembler.lean ====
section
/-!
DEFINITION. The assembler language of programs (30 R73) and its pseudo-instructions (30 R74): how a line
of text becomes the transaction the host sends. Host side only: nothing of the engine depends on it.
-/

namespace Sys2Proof.Machine

/-- A line that stands for one transaction (R73). -/
inductive AsmCommand where
  /-- `INIT key=<64 hex digits>, iv=<64 hex digits>` -/
  | init (key iv : List Byte)
  /-- `INIT.raw klen=<n>, ivlen=<m>, data=<hex bytes>` -/
  | initRaw (klen ivlen : Nat) (data : List Byte)
  /-- `STEP` -/
  | step
  /-- `APPLY <hex bytes>` -/
  | apply (input : List Byte)
  /-- `.word 0x<8 hex digits>`: any command word, with an empty payload -/
  | word (w : Word)
  deriving DecidableEq, Repr

/-- A line of a program: a command, or a pseudo-instruction (R74). -/
inductive AsmLine where
  | command (c : AsmCommand)
  /-- `ENCRYPT <hex bytes>` -/
  | encrypt (input : List Byte)
  /-- `DECRYPT <hex bytes>` -/
  | decrypt (input : List Byte)
  /-- `KEYSTREAM <n>` -/
  | keystream (n : Nat)
  /-- `INIT.zero` -/
  | initZero
  deriving DecidableEq, Repr

/-- The expansion of a line (R74). -/
def expandLine : AsmLine → AsmCommand
  | .command c => c
  | .encrypt input => .apply input
  | .decrypt input => .apply input
  | .keystream n => .apply (List.replicate n 0)
  | .initZero => .init (List.replicate 32 0) (List.replicate 32 0)

/-- The transaction a command stands for (R73); none where the line is outside what R73 admits. -/
def assembleCommand : AsmCommand → Option HostInput
  | .init key iv =>
    if key.length = 32 ∧ iv.length = 32 then some (.command (encode (.init 32 32)) (key ++ iv)) else none
  | .initRaw klen ivlen data =>
    if (Instr.init klen ivlen).wellFormed ∧ data.length = klen + ivlen then
      some (.command (encode (.init klen ivlen)) data)
    else none
  | .step => some (.command (encode .step) [])
  | .apply input =>
    if (Instr.apply input.length).wellFormed then
      some (.command (encode (.apply input.length)) input)
    else none
  | .word w => some (.command w [])

/-- The transaction a line stands for. -/
def assembleLine (l : AsmLine) : Option HostInput := assembleCommand (expandLine l)

/-- A program is a list of lines, one transaction each (R73). -/
def assemble : List AsmLine → Option (List HostInput)
  | [] => some []
  | l :: ls =>
    match assembleLine l, assemble ls with
    | some t, some ts => some (t :: ts)
    | _, _ => none

/-! ### The text of a line -/

/-- The value of a hex digit. -/
def hexDigit (c : Char) : Option Nat :=
  if '0' ≤ c ∧ c ≤ '9' then some (c.toNat - '0'.toNat)
  else if 'a' ≤ c ∧ c ≤ 'f' then some (c.toNat - 'a'.toNat + 10)
  else if 'A' ≤ c ∧ c ≤ 'F' then some (c.toNat - 'A'.toNat + 10)
  else none

/-- Hex pairs, payload byte 0 first, with optional spaces between pairs (R73). -/
def hexBytes : List Char → Option (List Byte)
  | [] => some []
  | ' ' :: cs => hexBytes cs
  | [_] => none
  | a :: b :: cs =>
    match hexDigit a, hexDigit b, hexBytes cs with
    | some x, some y, some rest => some (BitVec.ofNat 8 (16 * x + y) :: rest)
    | _, _, _ => none

/-- The digits of a decimal number, the value so far in front. -/
def decimalFrom (acc : Nat) : List Char → Option Nat
  | [] => some acc
  | c :: cs => if '0' ≤ c ∧ c ≤ '9' then decimalFrom (10 * acc + (c.toNat - '0'.toNat)) cs else none

/-- A decimal number of at least one digit. -/
def decimal (cs : List Char) : Option Nat := if cs = [] then none else decimalFrom 0 cs

/-- `cs` without the leading characters `w`, if it begins with them. -/
def dropWord : List Char → List Char → Option (List Char)
  | [], cs => some cs
  | w :: ws, c :: cs => if w = c then dropWord ws cs else none
  | _ :: _, [] => none

/-- `cs` without spaces in front. -/
def skipSpaces (cs : List Char) : List Char := cs.dropWhile (· = ' ')

/-- The characters before the first comma, and those after it and its spaces. -/
def splitComma (cs : List Char) : List Char × List Char :=
  (cs.takeWhile (· ≠ ','), skipSpaces ((cs.dropWhile (· ≠ ',')).drop 1))

/-- The text between a keyword and its operands: the operands follow a space, or there are none. -/
def operandsOf (keyword : List Char) (line : List Char) : Option (List Char) :=
  match dropWord keyword line with
  | some [] => some []
  | some (' ' :: cs) => some (skipSpaces cs)
  | _ => none

/-- `key=<hex>, iv=<hex>` (R73). -/
def parseInit (cs : List Char) : Option AsmCommand :=
  let (k, v) := splitComma cs
  match dropWord "key=".toList k, dropWord "iv=".toList v with
  | some kd, some vd =>
    match hexBytes kd, hexBytes vd with
    | some key, some iv => some (.init key iv)
    | _, _ => none
  | _, _ => none

/-- `klen=<n>, ivlen=<m>, data=<hex bytes>` (R73). -/
def parseInitRaw (cs : List Char) : Option AsmCommand :=
  let (k, rest) := splitComma cs
  let (v, d) := splitComma rest
  match dropWord "klen=".toList k, dropWord "ivlen=".toList v, dropWord "data=".toList d with
  | some kd, some vd, some dd =>
    match decimal kd, decimal vd, hexBytes dd with
    | some klen, some ivlen, some data => some (.initRaw klen ivlen data)
    | _, _, _ => none
  | _, _, _ => none

/-- `0x<8 hex digits>` (R73). -/
def parseWord (cs : List Char) : Option AsmCommand :=
  match dropWord "0x".toList cs with
  | some ds =>
    match hexBytes ds with
    | some [b3, b2, b1, b0] => if ds.length = 8 then some (.word (b3 ++ b2 ++ b1 ++ b0)) else none
    | _ => none
  | none => none

/-- The text of a line without its comment and without spaces around it (R73: `;` starts a comment). -/
def lineText (cs : List Char) : List Char :=
  (skipSpaces (skipSpaces (cs.takeWhile (· ≠ ';'))).reverse).reverse

/-- The line a text stands for (R73, R74). -/
def parseLine (text : List Char) : Option AsmLine :=
  let cs := lineText text
  (operandsOf "INIT".toList cs >>= parseInit).map .command
  <|> (operandsOf "INIT.raw".toList cs >>= parseInitRaw).map .command
  <|> (if cs = "INIT.zero".toList then some .initZero else none)
  <|> (if cs = "STEP".toList then some (.command .step) else none)
  <|> (operandsOf "APPLY".toList cs >>= hexBytes).map (fun b => .command (.apply b))
  <|> (operandsOf ".word".toList cs >>= parseWord).map .command
  <|> (operandsOf "ENCRYPT".toList cs >>= hexBytes).map .encrypt
  <|> (operandsOf "DECRYPT".toList cs >>= hexBytes).map .decrypt
  <|> (operandsOf "KEYSTREAM".toList cs >>= decimal).map .keystream

/-- A text cut at its line ends; the characters of the line being read come first, last one in front. -/
def splitLines : List Char → List Char → List (List Char)
  | acc, [] => [acc.reverse]
  | acc, c :: cs => if c = '\n' then acc.reverse :: splitLines [] cs else splitLines (c :: acc) cs

/-- The lines of a program; a line of nothing but a comment stands for nothing (R73). -/
def parseLines : List (List Char) → Option (List AsmLine)
  | [] => some []
  | t :: ts =>
    if lineText t = [] then parseLines ts
    else
      match parseLine t, parseLines ts with
      | some l, some ls => some (l :: ls)
      | _, _ => none

/-- The transactions of a program's text (R73, R74). -/
def assembleText (text : List Char) : Option (List HostInput) :=
  match parseLines (splitLines [] text) with
  | some ls => assemble ls
  | none => none

end Sys2Proof.Machine
end

