-- ==== Sys2Proof/Safety.lean ====
section
/-!
DEFINITION. The terms in which claims speak of the engine: which host inputs are proper transactions,
what a legal response is, the invariants, the logical keystream, and when two engines cannot be told
apart.
-/

namespace Sys2Proof.Machine

/-- A step that is safe: the engine answers a next state, it neither faults nor refuses. -/
def Completes (o : Host.Outcome State Fault Refusal) : Prop := ∃ t, o = .next t

/-- `n` steps in a row, as far as the first that does not answer a next state. -/
def run : Nat → State → Host.Outcome State Fault Refusal
  | 0, s => .next s
  | n + 1, s =>
    match step s with
    | .next t => run n t
    | stop => stop

/-- A transaction whose payload has the length its command word announces (30 R66); the others are
malformed (30 R71). Resets and losses of power carry nothing. -/
def HostInput.wellFormed : HostInput → Bool
  | .command w bytes => decide (bytes.length = payloadLength w)
  | .commandAbandoned w bytes => decide (bytes.length = payloadLength w)
  | .reset => true
  | .powerLoss => true

/-- Entry k of a table, k taken modulo N (00 R11, R12). -/
def entry (t : Table) (k : Nat) : Word := t[k % 1024]'(Nat.mod_lt _ (by decide))

/-- Byte k of the buffer, k taken modulo 64. -/
def bufferByte (b : Buffer) (k : Nat) : Byte := b[k % 64]'(Nat.mod_lt _ (by decide))

/-- The two states agree on every field of 10 R20: the same engine state. -/
def SameEngine (s t : State) : Prop :=
  s.p = t.p ∧ s.q = t.q ∧ s.cnt = t.cnt ∧ s.ksbuf = t.ksbuf ∧ s.cur = t.cur ∧ s.ready = t.ready

/-- The keystream word of the k-th step from here on, the next step being number 0 (41 R113). -/
def keystreamWord (s : State) (k : Nat) : Word := (stepFunction (runSteps k s).1).2

/-- The keystream byte number k from here on, least significant byte of a word first (41 R113). -/
def keystreamByte (s : State) (k : Nat) : Byte := byteOf (keystreamWord s (k / 4)) (k % 4)

/-- The number of refills of an APPLY of n bytes at cursor c: none while the buffered bytes last, else
one for every 64 bytes begun beyond them (43 R133). -/
def refillCount (c n : Nat) : Nat := (n - (64 - c) + 63) / 64

/-- The status a command word ends with (60 R151, R153), by the READY flag. -/
def expectedStatus (ready : Bool) (w : Word) : Status :=
  match decode w with
  | .illegal _ => .illegalCommand
  | .command (.init klen ivlen) =>
    if klen ≠ 32 then .invalidKeyLength else if ivlen ≠ 32 then .invalidIvLength else .ok
  | .command .step => if ready then .ok else .useBeforeInit
  | .command (.apply _) => if ready then .ok else .useBeforeInit

/-- The shape a response to a command word has (30 R67): data only with OK, a word for STEP, LEN bytes
for APPLY. -/
def ResponseShape (w : Word) (r : Response) : Prop :=
  if r.status = Status.code .ok then
    match decode w with
    | .command (.init _ _) => r.data = .nothing
    | .command .step => ∃ v, r.data = .word v
    | .command (.apply len) => ∃ vs, r.data = .bytes vs ∧ vs.length = len
    | .illegal _ => False
  else r.data = .nothing

/-- A response the engine may give at all (30 R67, 60 R150): a status code 0x00..0x04, data only with
OK, at most MAX_APPLY bytes of it. -/
def Response.legal (r : Response) : Bool :=
  match r.data with
  | .nothing => decide (r.status.toNat ≤ 4)
  | .word _ => decide (r.status = 0)
  | .bytes vs => decide (r.status = 0) && decide (vs.length ≤ 65535)

/-- Between commands no payload byte is held (40 R89, 60 R152), and every response given so far is a
legal one (U14). -/
def InterfaceInv (s : State) : Prop := s.payload = [] ∧ ∀ r ∈ s.outbox, r.legal = true

/-- A response that only a successful INIT gives: OK and no data (30 R67). -/
def Response.initOk (r : Response) : Bool := decide (r = ⟨Status.code .ok, .nothing⟩)

/-- A response with status OK. -/
def Response.isOk (r : Response) : Bool := decide (r.status = Status.code .ok)

/-- Boot order (70 R175, 10 R28): a Ready engine has answered a successful INIT, and the first OK answer
ever given, if there is one, was to an INIT. -/
def BootInv (s : State) : Prop :=
  (s.ready = true → ∃ r ∈ s.outbox, r.initOk = true)
    ∧ ∀ r, s.outbox.find? Response.isOk = some r → r.initOk = true

/-- The host cannot tell the two engines apart: they agree on all but what no rule reads again, namely
P and Q while READY = 0, and the bytes of KSBUF below the cursor, all of them after INIT (10 R29, R35). How many free draws were
taken is no part of it. -/
def Indistinct (s t : State) : Prop :=
  s.cnt = t.cnt ∧ s.cur = t.cur ∧ s.ready = t.ready ∧ s.inbox = t.inbox ∧ s.payload = t.payload
    ∧ s.outbox = t.outbox
    ∧ (s.ready = true → s.p = t.p ∧ s.q = t.q
        ∧ ∀ k, s.cur.val ≤ k → k < 64 → bufferByte s.ksbuf k = bufferByte t.ksbuf k)

end Sys2Proof.Machine
end

