-- ==== Sys2Proof/Certificates/Slice0/Obligations.lean ====
section
/-!
DEFINITION. What is claimed of the model, each statement a `def Obligations.<Name> : Prop`. The
statements rest on the numbered rules of spec/; HC-256's constants stand in those rules, which mark them
as general knowledge (93 G1 to G12; log 8).
-/

open Sys2Proof Sys2Proof.Machine

/-! ### Encoding (30) -/

/-- Decoding the word of a well-formed command gives the command back, every operand at every value its
field admits (R61 to R65, R70). -/
def Obligations.DecodeOfEncodeIsIdentity : Prop :=
  ∀ i : Instr, i.wellFormed = true → decode (encode i) = .command i

/-- A word that decodes as a command is that command's word, and the command is well-formed: each
command has one word (R63 to R65, R70). -/
def Obligations.EncodeOfDecodeIsIdentity : Prop :=
  ∀ (w : Word) (i : Instr), decode w = .command i → i.wellFormed = true ∧ encode i = w

/-- R70's decoder on every word, its fields cut by arithmetic on the word's value, and how many words
have each of the four outcomes. -/
def Obligations.DecodeFollowsFieldsAndCounts : Prop :=
  (∀ w : Word,
    (w.toNat % 256 = 1 ∧ w.toNat / 2 ^ 24 = 0 →
      decode w = .command (.init (w.toNat / 2 ^ 8 % 256) (w.toNat / 2 ^ 16 % 256)))
    ∧ (w.toNat % 256 = 2 ∧ w.toNat / 2 ^ 8 = 0 → decode w = .command .step)
    ∧ (w.toNat % 256 = 3 ∧ w.toNat / 2 ^ 8 % 256 = 0 →
        decode w = .command (.apply (w.toNat / 2 ^ 16)))
    ∧ (¬(w.toNat % 256 = 1 ∧ w.toNat / 2 ^ 24 = 0) ∧ ¬(w.toNat % 256 = 2 ∧ w.toNat / 2 ^ 8 = 0)
        ∧ ¬(w.toNat % 256 = 3 ∧ w.toNat / 2 ^ 8 % 256 = 0) → ∃ why, decode w = .illegal why))
  ∧ Nat.card { w : Word // ∃ klen ivlen, decode w = .command (.init klen ivlen) } = 2 ^ 16
  ∧ Nat.card { w : Word // decode w = .command .step } = 1
  ∧ Nat.card { w : Word // ∃ len, decode w = .command (.apply len) } = 2 ^ 16
  ∧ Nat.card { w : Word // ∃ why, decode w = .illegal why } = 2 ^ 32 - 2 ^ 17 - 1

/-- The words of R63 to R65 and of the decode table V14 of 95_test_vectors.md. -/
def Obligations.SpecWordsDecode : Prop :=
  decode 0x00202001#32 = .command (.init 32 32) ∧ decode 0x00000001#32 = .command (.init 0 0)
  ∧ decode 0x00201001#32 = .command (.init 16 32) ∧ decode 0x00102001#32 = .command (.init 32 16)
  ∧ decode 0x00000002#32 = .command .step
  ∧ decode 0x00000003#32 = .command (.apply 0) ∧ decode 0x00050003#32 = .command (.apply 5)
  ∧ decode 0xFFFF0003#32 = .command (.apply 65535)
  ∧ decode 0x00000000#32 = .illegal .reservedOpcode ∧ decode 0x00000004#32 = .illegal .reservedOpcode
  ∧ decode 0x000000ff#32 = .illegal .reservedOpcode ∧ decode 0x00000102#32 = .illegal .reservedBits
  ∧ decode 0x80000002#32 = .illegal .reservedBits ∧ decode 0x00000103#32 = .illegal .reservedBits
  ∧ decode 0x01202001#32 = .illegal .reservedBits

/-- R66: how many payload bytes each command word announces. -/
def Obligations.PayloadLengthAnnounced : Prop :=
  (∀ w klen ivlen, decode w = .command (.init klen ivlen) → payloadLength w = klen + ivlen)
  ∧ (∀ w, decode w = .command .step → payloadLength w = 0)
  ∧ (∀ w len, decode w = .command (.apply len) → payloadLength w = len)
  ∧ (∀ w why, decode w = .illegal why → payloadLength w = 0)

/-- R68, R69, R160: a word with opcode 0x00 or 0x04..0xFF, or with a valid opcode and a non-zero reserved
field, is answered ILLEGAL_COMMAND with no data, and nothing else changes. -/
def Obligations.IllegalWordsAnswered : Prop :=
  ∀ (s : State) (w : Word) (rest : List HostInput),
    s.inbox = .command w [] :: rest →
    (w.toNat % 256 = 0 ∨ 4 ≤ w.toNat % 256
      ∨ w.toNat % 256 = 1 ∧ w.toNat / 2 ^ 24 ≠ 0
      ∨ w.toNat % 256 = 2 ∧ w.toNat / 2 ^ 8 ≠ 0
      ∨ w.toNat % 256 = 3 ∧ w.toNat / 2 ^ 8 % 256 ≠ 0) →
    step s = .next { s with
      inbox := rest, payload := [], outbox := s.outbox ++ [⟨0x04#8, .nothing⟩] }

/-! ### The step of the machine and the host interface (30 R60, R71; 70 R174) -/

/-- When the host's next input is a transaction whose word decodes, a step is `exec` of the decoded
command on the state with the transaction taken from the inbox and its payload in place. -/
def Obligations.StepRunsDecodedCommand : Prop :=
  ∀ (s : State) (w : Word) (bytes : List Byte) (rest : List HostInput) (i : Instr),
    s.inbox = .command w bytes :: rest → decode w = .command i →
    step s = exec i { s with inbox := rest, payload := bytes }

/-- R163: with nothing pending the engine is idle and keeps its State (R173: after reset it waits). That
the model then takes a step at all is its choice, log 14. -/
def Obligations.IdleEngineKeepsState : Prop :=
  ∀ s : State, s.inbox = [] → step s = .next s

/-- R71: a transaction is refused exactly when its payload length differs from the length R66 gives its
command word; the same of a command executed by itself. -/
def Obligations.MalformedTransactionsRefused : Prop :=
  (∀ (s : State) (w : Word) (bytes : List Byte) (rest : List HostInput),
    s.inbox = .command w bytes :: rest →
    (step s = .refused .malformedTransaction ↔ bytes.length ≠ payloadLength w))
  ∧ ∀ (i : Instr) (s : State),
    exec i s = .refused .malformedTransaction ↔ s.payload.length ≠ i.payloadLength

/-- R153, R151, R150: every transaction that is not malformed is answered, by exactly one response, whose
status is the first that applies in R153's order. -/
def Obligations.StatusFollowsPriority : Prop :=
  ∀ (s : State) (w : Word) (bytes : List Byte) (rest : List HostInput),
    s.inbox = .command w bytes :: rest → bytes.length = payloadLength w →
    ∃ t r, step s = .next t ∧ t.outbox = s.outbox ++ [r]
      ∧ r.status = (expectedStatus s.ready w).code

/-- R150: the status codes. -/
def Obligations.StatusCodesAsTabled : Prop :=
  Status.code .ok = 0x00#8 ∧ Status.code .invalidKeyLength = 0x01#8
  ∧ Status.code .invalidIvLength = 0x02#8 ∧ Status.code .useBeforeInit = 0x03#8
  ∧ Status.code .illegalCommand = 0x04#8

/-- R67: the data of a response, by command and status. -/
def Obligations.ResponsesHaveTheirShape : Prop :=
  ∀ (s t : State) (w : Word) (bytes : List Byte) (rest : List HostInput) (r : Response),
    s.inbox = .command w bytes :: rest → step s = .next t → t.outbox = s.outbox ++ [r] →
    ResponseShape w r

/-- R152: a command that ends with a status other than OK returns no data and writes no state: beside the
host's own lists nothing changes, and the payload is discarded. -/
def Obligations.ErrorsWriteNoState : Prop :=
  ∀ (s t : State) (w : Word) (bytes : List Byte) (rest : List HostInput) (r : Response),
    s.inbox = .command w bytes :: rest → step s = .next t → t.outbox = s.outbox ++ [r] →
    r.status ≠ Status.code .ok →
    r.data = .nothing
      ∧ t = { s with inbox := rest, payload := [], outbox := s.outbox ++ [r] }

/-- R174 over a whole run: while the host sends no malformed transaction, the engine never stops. -/
def Obligations.ProperHostNeverStopsEngine : Prop :=
  ∀ (n : Nat) (s : State), (∀ x ∈ s.inbox, x.wellFormed = true) →
    ∃ t, run n s = .next t

/-! ### INIT (40) -/

/-- R81, R82: the key length is checked first and the IV length second; an INIT that fails writes no
state; with both lengths 32 INIT succeeds. READY is not looked at. -/
def Obligations.InitChecksLengths : Prop :=
  ∀ (klen ivlen : Nat) (s : State), s.payload.length = klen + ivlen →
    (klen ≠ 32 → exec (.init klen ivlen) s = .next { s with
      payload := [], outbox := s.outbox ++ [⟨0x01#8, .nothing⟩] })
    ∧ (klen = 32 ∧ ivlen ≠ 32 → exec (.init klen ivlen) s = .next { s with
      payload := [], outbox := s.outbox ++ [⟨0x02#8, .nothing⟩] })
    ∧ (klen = 32 ∧ ivlen = 32 → ∃ t, exec (.init klen ivlen) s = .next t
      ∧ t.outbox = s.outbox ++ [⟨0x00#8, .nothing⟩])

/-- R83: 32 bytes become eight words, four bytes each, least significant byte first. -/
def Obligations.UnpackIsLittleEndian : Prop :=
  ∀ bytes : List Byte, bytes.length = 32 →
    (unpackWords bytes).length = 8
    ∧ ∀ i, i < 8 →
      ((unpackWords bytes).getD i 0).toNat
        = (bytes.getD (4 * i) 0).toNat + 2 ^ 8 * (bytes.getD (4 * i + 1) 0).toNat
          + 2 ^ 16 * (bytes.getD (4 * i + 2) 0).toNat + 2 ^ 24 * (bytes.getD (4 * i + 3) 0).toNat

/-- R84: the array W has 2560 words: the key's, the IV's, and from W[16] on the recurrence. -/
def Obligations.ExpansionFollowsRecurrence : Prop :=
  ∀ key iv : List Word, key.length = 8 → iv.length = 8 →
    (expand key iv).length = 2560
    ∧ (∀ i, i < 8 → (expand key iv).getD i 0 = key.getD i 0)
    ∧ (∀ i, 8 ≤ i → i < 16 → (expand key iv).getD i 0 = iv.getD (i - 8) 0)
    ∧ ∀ i, 16 ≤ i → i < 2560 →
      (expand key iv).getD i 0
        = f2 ((expand key iv).getD (i - 2) 0) + (expand key iv).getD (i - 7) 0
          + f1 ((expand key iv).getD (i - 15) 0) + (expand key iv).getD (i - 16) 0
          + BitVec.ofNat 32 i

/-- R85, R86: P and Q are filled whole from W, P[i] = W[i + 512] and Q[i] = W[i + 1536], and CNT is 0. -/
def Obligations.TablesFilledFromExpansion : Prop :=
  ∀ (key iv : List Byte) (s : State), key.length = 32 → iv.length = 32 →
    (∀ i, i < 1024 →
      entry (fillTables key iv s).p i
          = (expand (unpackWords key) (unpackWords iv)).getD (i + 512) 0
      ∧ entry (fillTables key iv s).q i
          = (expand (unpackWords key) (unpackWords iv)).getD (i + 1536) 0)
    ∧ (fillTables key iv s).cnt = 0

/-- INIT completes (R80, R85 to R88). From ANY state that holds a 64-byte payload, INIT with both lengths 32
answers OK; the tables are those that 4096 steps make of the fill R85 gives (`u`, a state with CNT = 0
and the tables of R85, whatever else it holds); CNT = 0, CUR = 64, READY = 1; the host's side is
unchanged but for the response and the payload, which is gone (R89). Of KSBUF, stale or undefined by
R88 and R35, nothing is said. The count of free draws is the model's own field, logs 15 and 21. -/
def Obligations.InitCompletes : Prop :=
  ∀ s : State, s.payload.length = 64 →
    ∃ t, exec (.init 32 32) s = .next t
      ∧ t.cnt = 0 ∧ t.cur = 64 ∧ t.ready = true
      ∧ t.inbox = s.inbox ∧ t.draws = s.draws + 1 ∧ t.payload = []
      ∧ t.outbox = s.outbox ++ [⟨0x00#8, .nothing⟩]
      ∧ ∀ u : State, u.cnt = 0 →
        (∀ i, i < 1024 →
          entry u.p i = (expand (unpackWords (s.payload.take 32))
            (unpackWords (s.payload.drop 32))).getD (i + 512) 0
          ∧ entry u.q i = (expand (unpackWords (s.payload.take 32))
            (unpackWords (s.payload.drop 32))).getD (i + 1536) 0) →
        t.p = (runSteps 4096 u).1.p ∧ t.q = (runSteps 4096 u).1.q

/-- R90, R88: what a successful INIT leaves is a function of key and IV alone, KSBUF apart; and KSBUF does
not show: where the host's side is the same, the host cannot tell the two engines apart. -/
def Obligations.InitForgetsOldState : Prop :=
  ∀ s s' : State, s.payload.length = 64 → s'.payload = s.payload →
    ∃ t t', exec (.init 32 32) s = .next t ∧ exec (.init 32 32) s' = .next t'
      ∧ t.p = t'.p ∧ t.q = t'.q ∧ t.cnt = t'.cnt ∧ t.cur = t'.cur ∧ t.ready = t'.ready
      ∧ (s.inbox = s'.inbox → s.outbox = s'.outbox → Indistinct t t')

/-- INIT's frame: the host's inputs are unchanged whenever INIT answers; where a length is wrong, so are
every field of R20 (R82) and the count of free draws, and where both are 32, one draw is counted (logs
15 and 21). -/
def Obligations.InitFrame : Prop :=
  ∀ (klen ivlen : Nat) (s t : State), exec (.init klen ivlen) s = .next t →
    t.inbox = s.inbox ∧ t.payload = []
    ∧ (¬(klen = 32 ∧ ivlen = 32) → SameEngine t s ∧ t.draws = s.draws)
    ∧ (klen = 32 ∧ ivlen = 32 → t.draws = s.draws + 1)

/-- R23, R87: n steps advance CNT by n modulo 2048; the 4096 steps of the warm-up bring it back. -/
def Obligations.StepsAdvanceCounter : Prop :=
  (∀ (n : Nat) (s : State), (runSteps n s).1.cnt.toNat = (s.cnt.toNat + n) % 2048)
  ∧ ∀ s : State, (runSteps 4096 s).1.cnt = s.cnt

/-! ### The step (41) -/

/-- R100, R101: f1 and f2, the rotations written out as R11 defines them, with the rules' examples. -/
def Obligations.ExpansionFunctionsAsDefined : Prop :=
  (∀ x : Word, f1 x = (((x >>> 7) ||| (x <<< 25)) ^^^ ((x >>> 18) ||| (x <<< 14))) ^^^ (x >>> 3))
  ∧ (∀ x : Word, f2 x = (((x >>> 17) ||| (x <<< 15)) ^^^ ((x >>> 19) ||| (x <<< 13))) ^^^ (x >>> 10))
  ∧ f1 0x00000001#32 = 0x02004000#32 ∧ f1 0x80000000#32 = 0x11002000#32
  ∧ f1 0xFFFFFFFF#32 = 0x1FFFFFFF#32
  ∧ f2 0x00000001#32 = 0x0000A000#32 ∧ f2 0x80000000#32 = 0x00205000#32
  ∧ f2 0xFFFFFFFF#32 = 0x003FFFFF#32

/-- R103, R104: g and h, the rotations written out and the indices taken by arithmetic. -/
def Obligations.FeedbackAndFilterAsDefined : Prop :=
  (∀ (b : Table) (x y : Word),
    g b x y = (((x >>> 10) ||| (x <<< 22)) ^^^ ((y >>> 23) ||| (y <<< 9)))
      + entry b ((x ^^^ y).toNat % 1024))
  ∧ ∀ (b : Table) (u : Word),
    h b u = entry b (u.toNat % 256) + entry b (256 + u.toNat / 2 ^ 8 % 256)
      + entry b (512 + u.toNat / 2 ^ 16 % 256) + entry b (768 + u.toNat / 2 ^ 24)

/-- R25, R102: the index and the active table of the next step, from CNT alone. -/
def Obligations.RolesAndIndexFromCounter : Prop :=
  ∀ cnt : BitVec 11,
    (stepIndex cnt).toNat = cnt.toNat % 1024
    ∧ (cnt.toNat < 1024 → activeTable cnt = .p) ∧ (1024 ≤ cnt.toNat → activeTable cnt = .q)

/-- R12, R105, R107: index subtraction is modulo N, j minus 1023 is the next index, and none of the four
offsets of a step leads back to j. -/
def Obligations.OffsetsNeverReachCurrentEntry : Prop :=
  (∀ (j : Index) (k : Nat), ((indexBack j k).toNat : Int) = ((j.toNat : Int) - k) % 1024)
  ∧ (∀ j : Index, indexBack j 1023 = j + 1)
  ∧ ∀ j : Index, indexBack j 3 ≠ j ∧ indexBack j 10 ≠ j ∧ indexBack j 12 ≠ j ∧ indexBack j 1023 ≠ j

/-- R106: the step. `a` and `b` are the active and the passive table before it, `a'` and `b'` after it,
by R102. Exactly one entry and CNT are written; every other field is unchanged. -/
def Obligations.StepWritesOneEntryAndCounter : Prop :=
  ∀ s : State,
    let t := (stepFunction s).1
    let j := s.cnt.toNat % 1024
    let a := if s.cnt.toNat < 1024 then s.p else s.q
    let b := if s.cnt.toNat < 1024 then s.q else s.p
    let a' := if s.cnt.toNat < 1024 then t.p else t.q
    let b' := if s.cnt.toNat < 1024 then t.q else t.p
    entry a' j = entry a j + entry a (j + 1024 - 10)
        + g b (entry a (j + 1024 - 3)) (entry a (j + 1024 - 1023))
    ∧ (∀ k, k < 1024 → k ≠ j → entry a' k = entry a k)
    ∧ b' = b
    ∧ (stepFunction s).2 = h b (entry a' (j + 1024 - 12)) ^^^ entry a' j
    ∧ t.cnt.toNat = (s.cnt.toNat + 1) % 2048
    ∧ t.ksbuf = s.ksbuf ∧ t.cur = s.cur ∧ t.ready = s.ready ∧ t.inbox = s.inbox
    ∧ t.payload = s.payload ∧ t.outbox = s.outbox ∧ t.draws = s.draws

/-- R109: the roles flip exactly after the step at CNT = 1023 and after the step at CNT = 2047, and CNT
wraps to 0 after the latter. -/
def Obligations.RolesFlipAtHalfCycles : Prop :=
  ∀ s : State,
    (activeTable (stepFunction s).1.cnt ≠ activeTable s.cnt ↔ s.cnt = 1023 ∨ s.cnt = 2047)
    ∧ (s.cnt = 1023 → (stepFunction s).1.cnt = 1024 ∧ (stepFunction s).1.q = s.q)
    ∧ (s.cnt = 2047 → (stepFunction s).1.cnt = 0 ∧ (stepFunction s).1.p = s.p)

/-- R108: within a half-cycle the passive table is constant, and an entry of the active table keeps its
value until the step at its own index. -/
def Obligations.HalfCycleLeavesPassiveTable : Prop :=
  ∀ (s : State) (n : Nat), s.cnt.toNat % 1024 + n ≤ 1024 →
    let t := (runSteps n s).1
    (s.cnt.toNat < 1024 → t.q = s.q
      ∧ ∀ k, s.cnt.toNat + n ≤ k → k < 1024 → entry t.p k = entry s.p k)
    ∧ (1024 ≤ s.cnt.toNat → t.p = s.p
      ∧ ∀ k, s.cnt.toNat - 1024 + n ≤ k → k < 1024 → entry t.q k = entry s.q k)

/-- STEP completes (R110): on a Ready engine it takes one step and returns its word with OK. -/
def Obligations.StepCompletes : Prop :=
  ∀ s : State, s.ready = true → s.payload = [] →
    exec .step s = .next { (stepFunction s).1 with
      outbox := s.outbox ++ [⟨0x00#8, .word (stepFunction s).2⟩] }

/-- R110, R130, R153: while READY = 0, STEP and APPLY of any length, 0 included, answer
USE_BEFORE_INIT with no data, discard the payload and change nothing else. -/
def Obligations.UseBeforeInitIsRefusedByStatus : Prop :=
  ∀ s : State, s.ready = false →
    (s.payload = [] →
      exec .step s = .next { s with outbox := s.outbox ++ [⟨0x03#8, .nothing⟩] })
    ∧ ∀ len, s.payload.length = len → exec (.apply len) s = .next { s with
      payload := [], outbox := s.outbox ++ [⟨0x03#8, .nothing⟩] }

/-- R111: STEP neither reads nor writes KSBUF or CUR. -/
def Obligations.StepIgnoresBuffer : Prop :=
  ∀ (s t : State) (b : Buffer) (c : Fin 65), exec .step s = .next t →
    t.ksbuf = s.ksbuf ∧ t.cur = s.cur
    ∧ exec .step { s with ksbuf := b, cur := c } = .next { t with ksbuf := b, cur := c }

/-- STEP's frame (R106, R110, R111): whenever STEP answers, the passive table, every entry of the active
table but the one at j, KSBUF, CUR, READY, the host's inputs and the draws are unchanged. -/
def Obligations.StepFrame : Prop :=
  ∀ s t : State, exec .step s = .next t →
    t.ksbuf = s.ksbuf ∧ t.cur = s.cur ∧ t.ready = s.ready ∧ t.inbox = s.inbox ∧ t.draws = s.draws
    ∧ t.payload = []
    ∧ (s.cnt.toNat < 1024 → t.q = s.q
        ∧ ∀ k, k < 1024 → k ≠ s.cnt.toNat % 1024 → entry t.p k = entry s.p k)
    ∧ (1024 ≤ s.cnt.toNat → t.p = s.p
        ∧ ∀ k, k < 1024 → k ≠ s.cnt.toNat % 1024 → entry t.q k = entry s.q k)

/-- R113: n STEPs sent one after the other to a Ready engine return the next n keystream words in order. -/
def Obligations.StepsReturnKeystreamWords : Prop :=
  ∀ (n : Nat) (s : State), s.ready = true → s.inbox = List.replicate n (.command 0x00000002#32 []) →
    ∃ t, run n s = .next t
      ∧ t.outbox = s.outbox ++ (List.range n).map fun k => ⟨0x00#8, .word (keystreamWord s k)⟩

/-! ### REFILL (42) and APPLY (43) -/

/-- R44: after a refill KSBUF[4k + n] is byte n of the word of its k-th step. -/
def Obligations.RefillPacksLittleEndian : Prop :=
  ∀ (s : State) (k n : Nat), k < 16 → n < 4 →
    (bufferByte (refill s).ksbuf (4 * k + n)).toNat = (keystreamWord s k).toNat / 2 ^ (8 * n) % 256

/-- R120, R123: a refill is 16 steps and CUR <- 0; READY and the host's side are unchanged. -/
def Obligations.RefillTakesSixteenSteps : Prop :=
  ∀ s : State,
    (refill s).p = (runSteps 16 s).1.p ∧ (refill s).q = (runSteps 16 s).1.q
    ∧ (refill s).cnt.toNat = (s.cnt.toNat + 16) % 2048 ∧ (refill s).cur = 0
    ∧ (refill s).ready = s.ready ∧ (refill s).inbox = s.inbox ∧ (refill s).payload = s.payload
    ∧ (refill s).outbox = s.outbox ∧ (refill s).draws = s.draws

/-- R132: APPLY with LEN = 0 on a Ready engine answers OK with no bytes and changes nothing, even at
CUR = 64. -/
def Obligations.ZeroLengthApplyChangesNothing : Prop :=
  ∀ s : State, s.ready = true → s.payload = [] →
    exec (.apply 0) s = .next { s with outbox := s.outbox ++ [⟨0x00#8, .bytes []⟩] }

/-- APPLY completes (R130, R131, R122, R34): on a Ready engine an APPLY of as many bytes as the payload
holds answers OK with that many bytes; byte k is input byte k XOR the k-th keystream byte from the
cursor on: first the buffered bytes, then the bytes of the words of the next steps. READY, the host's
inputs and the draws are unchanged, and the payload is gone. -/
def Obligations.ApplyXorsNextKeystream : Prop :=
  ∀ s : State, s.ready = true →
    ∃ t out, exec (.apply s.payload.length) s = .next t
      ∧ t.outbox = s.outbox ++ [⟨0x00#8, .bytes out⟩]
      ∧ out.length = s.payload.length
      ∧ (∀ k, k < s.payload.length →
          out.getD k 0 = s.payload.getD k 0 ^^^
            (if s.cur.val + k < 64 then bufferByte s.ksbuf (s.cur.val + k)
              else keystreamByte s (s.cur.val + k - 64)))
      ∧ t.ready = s.ready ∧ t.inbox = s.inbox ∧ t.draws = s.draws ∧ t.payload = []

/-- R133, R182: the cursor, the counter and the storage after a successful APPLY of n bytes at cursor c.
While the buffered bytes last nothing but the cursor moves; else r = ceil((n - a) / 64) refills, 16 r
steps, run, and the buffer holds the bytes of the last 16 words. -/
def Obligations.ApplyCountsRefills : Prop :=
  ∀ s : State, s.ready = true →
    let n := s.payload.length
    let c := s.cur.val
    let r := refillCount c n
    ∃ t, exec (.apply n) s = .next t
      ∧ (n ≤ 64 - c → t.cur.val = c + n ∧ t.cnt = s.cnt ∧ t.p = s.p ∧ t.q = s.q ∧ t.ksbuf = s.ksbuf)
      ∧ (64 - c < n → t.cur.val = (n - (64 - c) - 1) % 64 + 1
          ∧ t.cnt.toNat = (s.cnt.toNat + 16 * r) % 2048
          ∧ t.p = (runSteps (16 * r) s).1.p ∧ t.q = (runSteps (16 * r) s).1.q
          ∧ ∀ k, k < 64 → bufferByte t.ksbuf k = keystreamByte s (64 * (r - 1) + k))

/-- R134: an input split over two APPLYs gives the bytes and the engine state of one APPLY of the whole. -/
def Obligations.SplitApplyIsOneApply : Prop :=
  ∀ (s : State) (xs ys : List Byte), s.ready = true →
    ∃ t u v out₁ out₂,
      exec (.apply xs.length) { s with payload := xs } = .next t
      ∧ exec (.apply ys.length) { t with payload := ys } = .next u
      ∧ exec (.apply (xs ++ ys).length) { s with payload := xs ++ ys } = .next v
      ∧ u.outbox = s.outbox ++ [⟨0x00#8, .bytes out₁⟩, ⟨0x00#8, .bytes out₂⟩]
      ∧ v.outbox = s.outbox ++ [⟨0x00#8, .bytes (out₁ ++ out₂)⟩]
      ∧ SameEngine u v

/-- R134: APPLYs of any lengths, sent one after the other to a Ready engine with an empty buffer (as
INIT leaves it), return together their inputs XOR the unbroken logical keystream. -/
def Obligations.ApplySequenceIsContinuous : Prop :=
  ∀ (parts : List (List Byte)) (s : State), s.ready = true → s.cur = 64 →
    (∀ x ∈ parts, x.length ≤ 65535) →
    s.inbox = parts.map (fun x => .command (encode (.apply x.length)) x) →
    ∃ (t : State) (outs : List (List Byte)), run parts.length s = .next t
      ∧ t.outbox = s.outbox ++ outs.map (fun o => ⟨0x00#8, .bytes o⟩)
      ∧ outs.map List.length = parts.map List.length
      ∧ outs.flatten.length = parts.flatten.length
      ∧ ∀ k, k < parts.flatten.length →
        outs.flatten.getD k 0 = parts.flatten.getD k 0 ^^^ keystreamByte s k

/-- R131: the State after APPLY depends on LEN but not on the data, and output byte k differs between two
inputs exactly as input byte k does. -/
def Obligations.ApplyStateIgnoresData : Prop :=
  ∀ (s t t' : State) (xs ys out out' : List Byte), s.ready = true → xs.length = ys.length →
    exec (.apply xs.length) { s with payload := xs } = .next t →
    exec (.apply ys.length) { s with payload := ys } = .next t' →
    t.outbox = s.outbox ++ [⟨0x00#8, .bytes out⟩] → t'.outbox = s.outbox ++ [⟨0x00#8, .bytes out'⟩] →
    SameEngine t t'
    ∧ ∀ k, k < xs.length → out.getD k 0 ^^^ out'.getD k 0 = xs.getD k 0 ^^^ ys.getD k 0

/-- R135: what APPLY makes of an input, an APPLY from the same engine state turns back into it. -/
def Obligations.ApplyUndoesItself : Prop :=
  ∀ (s s' t : State) (xs ys : List Byte), s.ready = true → SameEngine s s' →
    exec (.apply xs.length) { s with payload := xs } = .next t →
    t.outbox = s.outbox ++ [⟨0x00#8, .bytes ys⟩] →
    ∃ t', exec (.apply ys.length) { s' with payload := ys } = .next t'
      ∧ t'.outbox = s'.outbox ++ [⟨0x00#8, .bytes xs⟩] ∧ SameEngine t t'

/-- APPLY's frame (R130 to R133): whenever APPLY answers, READY, the host's inputs and the draws are
unchanged; where READY = 0 or the buffered bytes suffice, so are the tables, CNT and KSBUF. -/
def Obligations.ApplyFrame : Prop :=
  ∀ (len : Nat) (s t : State), exec (.apply len) s = .next t →
    t.ready = s.ready ∧ t.inbox = s.inbox ∧ t.draws = s.draws ∧ t.payload = []
    ∧ (s.ready = false ∨ s.cur.val + len ≤ 64 →
        t.p = s.p ∧ t.q = s.q ∧ t.cnt = s.cnt ∧ t.ksbuf = s.ksbuf)
    ∧ (s.ready = false → t.cur = s.cur)

/-- R176, R34: after an APPLY of 1 to 64 bytes from an empty buffer, a STEP returns the word after the 16
buffered ones, however few bytes were consumed. -/
def Obligations.StepAfterApplySkipsBufferedWords : Prop :=
  ∀ s : State, s.ready = true → s.cur = 64 → 1 ≤ s.payload.length → s.payload.length ≤ 64 →
    ∃ t u, exec (.apply s.payload.length) s = .next t ∧ exec .step t = .next u
      ∧ u.outbox = t.outbox ++ [⟨0x00#8, .word (keystreamWord s 16)⟩]

/-! ### Reset (70) -/

/-- R170: what the machine holds after reset, where the spec gives a value. -/
def Obligations.ResetValuesAsSpecified : Prop :=
  State.reset.ready = false ∧ State.reset.cnt = 0 ∧ State.reset.cur = 64

/-- R170, R171: RST between two transactions gives the reset state from any state: READY = 0, CNT = 0,
CUR = 64, and some contents `x` of P, Q and KSBUF, of which nothing is said (R35). The host gets nothing.
The count of free draws is the model's own field, log 15. -/
def Obligations.ResetInputGivesResetState : Prop :=
  ∀ (s : State) (rest : List HostInput), s.inbox = .reset :: rest →
    ∃ x : Storage, step s = .next { s with
      p := x.p, q := x.q, ksbuf := x.ksbuf, ready := false, cnt := 0, cur := 64, inbox := rest,
      payload := [], draws := s.draws + 1 }

/-- R172: RST during a command abandons it: no response, the reset state, and afterwards the host cannot
tell it from a reset between transactions. That a transaction with a payload of the wrong length is
refused even when it is abandoned is the model's choice, log 7. -/
def Obligations.AbandonedCommandLeavesResetState : Prop :=
  ∀ (s : State) (w : Word) (bytes : List Byte) (rest : List HostInput),
    s.inbox = .commandAbandoned w bytes :: rest →
    (bytes.length = payloadLength w →
      ∃ t t', step s = .next t ∧ step { s with inbox := .reset :: rest } = .next t'
        ∧ t.ready = false ∧ t.cnt = 0 ∧ t.cur = 64 ∧ t.outbox = s.outbox ∧ t.inbox = rest
        ∧ Indistinct t t')
    ∧ (bytes.length ≠ payloadLength w → step s = .refused .malformedTransaction)

/-- R163, U12: a loss of power is a reset; the host cannot tell what the storage then holds. -/
def Obligations.PowerLossLeavesResetState : Prop :=
  ∀ (s : State) (rest : List HostInput), s.inbox = .powerLoss :: rest →
    ∃ t t', step s = .next t ∧ step { s with inbox := .reset :: rest } = .next t'
      ∧ t.ready = false ∧ t.cnt = 0 ∧ t.cur = 64 ∧ t.outbox = s.outbox ∧ t.inbox = rest
      ∧ Indistinct t t'

/-! ### The whole machine -/

/-- R28: READY goes from 0 to 1 only in a step that runs an INIT with both lengths 32, and from 1 to 0
only in a reset (RST, a loss of power, or an abandoned command). -/
def Obligations.ReadyWrittenByInitAndResetOnly : Prop :=
  ∀ s t : State, step s = .next t →
    (s.ready = false → t.ready = true →
      ∃ w bytes rest, s.inbox = .command w bytes :: rest ∧ decode w = .command (.init 32 32))
    ∧ (s.ready = true → t.ready = false →
      ∃ x rest, s.inbox = x :: rest ∧ x.isReset = true)

/-- R21, R22, R26, R121: the tables change only in a step that runs an INIT with both lengths 32, or on a
Ready engine a STEP or an APPLY that outruns the buffer; KSBUF only in one that runs such an APPLY, or an
INIT with both lengths 32, after which it holds a free draw (R35, R88; U2; log 21); or else in a reset,
RST between transactions, RST during a command or a loss of power, after which all three hold a free draw
(R35, R170; U1, U2, U12; logs 4, 5, 6). -/
def Obligations.StorageWrittenByCommandsAndResetsOnly : Prop :=
  ∀ s t : State, step s = .next t →
    (t.p ≠ s.p ∨ t.q ≠ s.q →
      (∃ w bytes rest i, s.inbox = .command w bytes :: rest ∧ decode w = .command i
        ∧ (i = .init 32 32 ∨ s.ready = true ∧ i = .step
          ∨ s.ready = true ∧ ∃ len, i = .apply len ∧ 64 < s.cur.val + len))
      ∨ ∃ x rest, s.inbox = x :: rest ∧ x.isReset = true)
    ∧ (t.ksbuf ≠ s.ksbuf →
      (∃ w bytes rest i, s.inbox = .command w bytes :: rest ∧ decode w = .command i
        ∧ (i = .init 32 32 ∨ s.ready = true ∧ ∃ len, i = .apply len ∧ 64 < s.cur.val + len))
      ∨ ∃ x rest, s.inbox = x :: rest ∧ x.isReset = true)

/-- R89, R67, R150 (U14): every step keeps the interface invariant: between commands no payload byte is
held, and every response ever given has a status 0x00..0x04, data only with OK, and at most 65535 bytes
of it. -/
def Obligations.EveryStepKeepsInterfaceLegal : Prop :=
  ∀ s t : State, InterfaceInv s → step s = .next t → InterfaceInv t

/-- R175, R28: every step keeps the boot order: a Ready engine has answered a successful INIT, and the
first OK answer ever given was to an INIT. -/
def Obligations.EveryStepKeepsBootOrder : Prop :=
  ∀ s t : State, BootInv s → step s = .next t → BootInv t

/-- Both invariants hold after reset. -/
def Obligations.InvariantsHoldAtReset : Prop :=
  InterfaceInv State.reset ∧ BootInv State.reset

/-- R29, R35, R91: what no rule reads again never shows. Two engines that agree on all but P and Q while
READY = 0 and the consumed bytes of KSBUF answer every step alike and stay so. -/
def Obligations.UnreadStorageNeverShows : Prop :=
  ∀ s s' : State, Indistinct s s' →
    (∀ t, step s = .next t → ∃ t', step s' = .next t' ∧ Indistinct t t')
    ∧ ∀ r, step s = .refused r → step s' = .refused r

/-! ### The assembler language (30 R73, R74) and the parameters (00 R8, R9) -/

/-- R74: the pseudo-instructions stand for their expansions. -/
def Obligations.PseudoInstructionsExpand : Prop :=
  (∀ b, assembleLine (.encrypt b) = assembleLine (.command (.apply b)))
  ∧ (∀ b, assembleLine (.decrypt b) = assembleLine (.command (.apply b)))
  ∧ (∀ n, assembleLine (.keystream n) = assembleLine (.command (.apply (List.replicate n 0))))
  ∧ assembleLine .initZero
      = assembleLine (.command (.init (List.replicate 32 0) (List.replicate 32 0)))

/-- R73: each command line assembles to the word and the payload R73 gives it, for every operand the
syntax admits; and what a line assembles to is not malformed, but for a `.word` whose word announces
payload bytes, since `.word` sends none (R66, R71). -/
def Obligations.AssembledLinesGiveTheirTransactions : Prop :=
  (∀ (c : AsmCommand) (x : HostInput), assembleCommand c = some x →
    (∀ w, c = .word w → payloadLength w = 0) → x.wellFormed = true)
  ∧ (∀ b, b.length ≤ 65535 →
      assembleCommand (.apply b) = some (.command (BitVec.ofNat 32 (b.length * 2 ^ 16 + 3)) b))
  ∧ (∀ key iv, key.length = 32 → iv.length = 32 →
      assembleCommand (.init key iv) = some (.command 0x00202001#32 (key ++ iv)))
  ∧ (∀ klen ivlen data, klen ≤ 255 → ivlen ≤ 255 → data.length = klen + ivlen →
      assembleCommand (.initRaw klen ivlen data)
        = some (.command (BitVec.ofNat 32 (ivlen * 2 ^ 16 + klen * 2 ^ 8 + 1)) data))
  ∧ assembleCommand .step = some (.command 0x00000002#32 [])
  ∧ ∀ w, assembleCommand (.word w) = some (.command w [])

/-- R9: the relations the parameters obey. -/
def Obligations.ParametersObeyRelations : Prop :=
  tableLength = 2 ^ indexBits ∧ period = 2 * tableLength ∧ warmUpSteps % period = 0
  ∧ bufBytes = 4 * batchWords
end

