-- ==== Sys2Proof/Laws/Decode.lean ====
section
/-!
SUPPORT. The fields of a command word and the words of the commands, as arithmetic on their values.
-/

namespace Sys2Proof

theorem opcodeField_toNat (w : Word) : (opcodeField w).toNat = w.toNat % 256 := by
  simp [opcodeField, BitVec.extractLsb'_toNat]

theorem fieldA_toNat (w : Word) : (fieldA w).toNat = w.toNat / 2 ^ 8 % 256 := by
  simp [fieldA, BitVec.extractLsb'_toNat, Nat.shiftRight_eq_div_pow]

theorem fieldB_toNat (w : Word) : (fieldB w).toNat = w.toNat / 2 ^ 16 % 256 := by
  simp [fieldB, BitVec.extractLsb'_toNat, Nat.shiftRight_eq_div_pow]

theorem fieldC_toNat (w : Word) : (fieldC w).toNat = w.toNat / 2 ^ 24 := by
  have := w.isLt
  simp [fieldC, BitVec.extractLsb'_toNat, Nat.shiftRight_eq_div_pow]
  omega

theorem lenField_toNat (w : Word) : (lenField w).toNat = w.toNat / 2 ^ 16 := by
  have := w.isLt
  simp [lenField, BitVec.extractLsb'_toNat, Nat.shiftRight_eq_div_pow]
  omega

/-- The decoder by arithmetic on the word's value (R70). -/
theorem decode_eq (w : Word) :
    decode w
      = if w.toNat % 256 = 1 then
          if w.toNat / 2 ^ 24 = 0 then
            .command (.init (w.toNat / 2 ^ 8 % 256) (w.toNat / 2 ^ 16 % 256))
          else .illegal .reservedBits
        else if w.toNat % 256 = 2 then
          if w.toNat / 2 ^ 8 = 0 then .command .step else .illegal .reservedBits
        else if w.toNat % 256 = 3 then
          if w.toNat / 2 ^ 8 % 256 = 0 then .command (.apply (w.toNat / 2 ^ 16))
          else .illegal .reservedBits
        else .illegal .reservedOpcode := by
  have heq : ∀ a b : Byte, a = b ↔ a.toNat = b.toNat := fun a b => BitVec.toNat_inj.symm
  have hw := w.isLt
  have hzero : (w.toNat / 2 ^ 8 % 256 = 0 ∧ w.toNat / 2 ^ 16 % 256 = 0 ∧ w.toNat / 2 ^ 24 = 0)
      ↔ w.toNat / 2 ^ 8 = 0 := by omega
  have z : BitVec.toNat (0 : Byte) = 0 := rfl
  have v1 : BitVec.toNat 1#8 = 1 := rfl
  have v2 : BitVec.toNat 2#8 = 2 := rfl
  have v3 : BitVec.toNat 3#8 = 3 := rfl
  simp only [decode, heq, opcodeField_toNat, fieldA_toNat, fieldB_toNat, fieldC_toNat, lenField_toNat,
    opcInit, opcStep, opcApply, z, v1, v2, v3, hzero]

/-- The value of two bit strings side by side. -/
theorem append_toNat {n m : Nat} (x : BitVec n) (y : BitVec m) :
    (x ++ y).toNat = x.toNat * 2 ^ m + y.toNat := by
  rw [BitVec.toNat_append, ← Nat.shiftLeft_add_eq_or_of_lt y.isLt, Nat.shiftLeft_eq]

/-- INIT's word (R63). -/
theorem encode_init_toNat (klen ivlen : Nat) :
    (encode (.init klen ivlen)).toNat = ivlen % 256 * 2 ^ 16 + klen % 256 * 2 ^ 8 + 1 := by
  simp only [encode, opcInit, append_toNat, BitVec.toNat_ofNat]
  omega

/-- APPLY's word (R65). -/
theorem encode_apply_toNat (len : Nat) :
    (encode (.apply len)).toNat = len % 2 ^ 16 * 2 ^ 16 + 3 := by
  simp only [encode, opcApply, append_toNat, BitVec.toNat_ofNat]
  omega

/-- STEP's word (R64). -/
theorem encode_step : encode .step = 0x00000002#32 := by decide

end Sys2Proof
end

