-- ==== Sys2Proof/Laws/State.lean ====
section
/-!
SUPPORT. What each update of the State leaves in each field: one lemma per field per update, so that no
later proof unfolds a record update. Each holds by `rfl`, written `(rfl)` so that `simp` cites the lemma:
a defeq check across a run of 4096 steps would make the kernel run them.
-/

namespace Sys2Proof.Machine
section setTable_p
variable (s : State) (v : Table)

@[simp] theorem setTable_p_p : (s.setTable .p v).p = v := (rfl)
@[simp] theorem setTable_p_q : (s.setTable .p v).q = s.q := (rfl)
@[simp] theorem setTable_p_cnt : (s.setTable .p v).cnt = s.cnt := (rfl)
@[simp] theorem setTable_p_ksbuf : (s.setTable .p v).ksbuf = s.ksbuf := (rfl)
@[simp] theorem setTable_p_cur : (s.setTable .p v).cur = s.cur := (rfl)
@[simp] theorem setTable_p_ready : (s.setTable .p v).ready = s.ready := (rfl)
@[simp] theorem setTable_p_inbox : (s.setTable .p v).inbox = s.inbox := (rfl)
@[simp] theorem setTable_p_payload : (s.setTable .p v).payload = s.payload := (rfl)
@[simp] theorem setTable_p_outbox : (s.setTable .p v).outbox = s.outbox := (rfl)
@[simp] theorem setTable_p_draws : (s.setTable .p v).draws = s.draws := (rfl)

end setTable_p

section setTable_q
variable (s : State) (v : Table)

@[simp] theorem setTable_q_p : (s.setTable .q v).p = s.p := (rfl)
@[simp] theorem setTable_q_q : (s.setTable .q v).q = v := (rfl)
@[simp] theorem setTable_q_cnt : (s.setTable .q v).cnt = s.cnt := (rfl)
@[simp] theorem setTable_q_ksbuf : (s.setTable .q v).ksbuf = s.ksbuf := (rfl)
@[simp] theorem setTable_q_cur : (s.setTable .q v).cur = s.cur := (rfl)
@[simp] theorem setTable_q_ready : (s.setTable .q v).ready = s.ready := (rfl)
@[simp] theorem setTable_q_inbox : (s.setTable .q v).inbox = s.inbox := (rfl)
@[simp] theorem setTable_q_payload : (s.setTable .q v).payload = s.payload := (rfl)
@[simp] theorem setTable_q_outbox : (s.setTable .q v).outbox = s.outbox := (rfl)
@[simp] theorem setTable_q_draws : (s.setTable .q v).draws = s.draws := (rfl)

end setTable_q

section setCnt
variable (s : State) (v : BitVec 11)

@[simp] theorem setCnt_p : (s.setCnt v).p = s.p := (rfl)
@[simp] theorem setCnt_q : (s.setCnt v).q = s.q := (rfl)
@[simp] theorem setCnt_cnt : (s.setCnt v).cnt = v := (rfl)
@[simp] theorem setCnt_ksbuf : (s.setCnt v).ksbuf = s.ksbuf := (rfl)
@[simp] theorem setCnt_cur : (s.setCnt v).cur = s.cur := (rfl)
@[simp] theorem setCnt_ready : (s.setCnt v).ready = s.ready := (rfl)
@[simp] theorem setCnt_inbox : (s.setCnt v).inbox = s.inbox := (rfl)
@[simp] theorem setCnt_payload : (s.setCnt v).payload = s.payload := (rfl)
@[simp] theorem setCnt_outbox : (s.setCnt v).outbox = s.outbox := (rfl)
@[simp] theorem setCnt_draws : (s.setCnt v).draws = s.draws := (rfl)

end setCnt

section setCur
variable (s : State) (v : Fin 65)

@[simp] theorem setCur_p : (s.setCur v).p = s.p := (rfl)
@[simp] theorem setCur_q : (s.setCur v).q = s.q := (rfl)
@[simp] theorem setCur_cnt : (s.setCur v).cnt = s.cnt := (rfl)
@[simp] theorem setCur_ksbuf : (s.setCur v).ksbuf = s.ksbuf := (rfl)
@[simp] theorem setCur_cur : (s.setCur v).cur = v := (rfl)
@[simp] theorem setCur_ready : (s.setCur v).ready = s.ready := (rfl)
@[simp] theorem setCur_inbox : (s.setCur v).inbox = s.inbox := (rfl)
@[simp] theorem setCur_payload : (s.setCur v).payload = s.payload := (rfl)
@[simp] theorem setCur_outbox : (s.setCur v).outbox = s.outbox := (rfl)
@[simp] theorem setCur_draws : (s.setCur v).draws = s.draws := (rfl)

end setCur

section setReady
variable (s : State) (v : Bool)

@[simp] theorem setReady_p : (s.setReady v).p = s.p := (rfl)
@[simp] theorem setReady_q : (s.setReady v).q = s.q := (rfl)
@[simp] theorem setReady_cnt : (s.setReady v).cnt = s.cnt := (rfl)
@[simp] theorem setReady_ksbuf : (s.setReady v).ksbuf = s.ksbuf := (rfl)
@[simp] theorem setReady_cur : (s.setReady v).cur = s.cur := (rfl)
@[simp] theorem setReady_ready : (s.setReady v).ready = v := (rfl)
@[simp] theorem setReady_inbox : (s.setReady v).inbox = s.inbox := (rfl)
@[simp] theorem setReady_payload : (s.setReady v).payload = s.payload := (rfl)
@[simp] theorem setReady_outbox : (s.setReady v).outbox = s.outbox := (rfl)
@[simp] theorem setReady_draws : (s.setReady v).draws = s.draws := (rfl)

end setReady

section setKsbuf
variable (s : State) (v : Buffer)

@[simp] theorem setKsbuf_p : (s.setKsbuf v).p = s.p := (rfl)
@[simp] theorem setKsbuf_q : (s.setKsbuf v).q = s.q := (rfl)
@[simp] theorem setKsbuf_cnt : (s.setKsbuf v).cnt = s.cnt := (rfl)
@[simp] theorem setKsbuf_ksbuf : (s.setKsbuf v).ksbuf = v := (rfl)
@[simp] theorem setKsbuf_cur : (s.setKsbuf v).cur = s.cur := (rfl)
@[simp] theorem setKsbuf_ready : (s.setKsbuf v).ready = s.ready := (rfl)
@[simp] theorem setKsbuf_inbox : (s.setKsbuf v).inbox = s.inbox := (rfl)
@[simp] theorem setKsbuf_payload : (s.setKsbuf v).payload = s.payload := (rfl)
@[simp] theorem setKsbuf_outbox : (s.setKsbuf v).outbox = s.outbox := (rfl)
@[simp] theorem setKsbuf_draws : (s.setKsbuf v).draws = s.draws := (rfl)

end setKsbuf

section setStorage
variable (s : State) (v : Storage)

@[simp] theorem setStorage_p : (s.setStorage v).p = v.p := (rfl)
@[simp] theorem setStorage_q : (s.setStorage v).q = v.q := (rfl)
@[simp] theorem setStorage_cnt : (s.setStorage v).cnt = s.cnt := (rfl)
@[simp] theorem setStorage_ksbuf : (s.setStorage v).ksbuf = v.ksbuf := (rfl)
@[simp] theorem setStorage_cur : (s.setStorage v).cur = s.cur := (rfl)
@[simp] theorem setStorage_ready : (s.setStorage v).ready = s.ready := (rfl)
@[simp] theorem setStorage_inbox : (s.setStorage v).inbox = s.inbox := (rfl)
@[simp] theorem setStorage_payload : (s.setStorage v).payload = s.payload := (rfl)
@[simp] theorem setStorage_outbox : (s.setStorage v).outbox = s.outbox := (rfl)
@[simp] theorem setStorage_draws : (s.setStorage v).draws = s.draws := (rfl)

end setStorage

section setInbox
variable (s : State) (v : List HostInput)

@[simp] theorem setInbox_p : (s.setInbox v).p = s.p := (rfl)
@[simp] theorem setInbox_q : (s.setInbox v).q = s.q := (rfl)
@[simp] theorem setInbox_cnt : (s.setInbox v).cnt = s.cnt := (rfl)
@[simp] theorem setInbox_ksbuf : (s.setInbox v).ksbuf = s.ksbuf := (rfl)
@[simp] theorem setInbox_cur : (s.setInbox v).cur = s.cur := (rfl)
@[simp] theorem setInbox_ready : (s.setInbox v).ready = s.ready := (rfl)
@[simp] theorem setInbox_inbox : (s.setInbox v).inbox = v := (rfl)
@[simp] theorem setInbox_payload : (s.setInbox v).payload = s.payload := (rfl)
@[simp] theorem setInbox_outbox : (s.setInbox v).outbox = s.outbox := (rfl)
@[simp] theorem setInbox_draws : (s.setInbox v).draws = s.draws := (rfl)

end setInbox

section setPayload
variable (s : State) (v : List Byte)

@[simp] theorem setPayload_p : (s.setPayload v).p = s.p := (rfl)
@[simp] theorem setPayload_q : (s.setPayload v).q = s.q := (rfl)
@[simp] theorem setPayload_cnt : (s.setPayload v).cnt = s.cnt := (rfl)
@[simp] theorem setPayload_ksbuf : (s.setPayload v).ksbuf = s.ksbuf := (rfl)
@[simp] theorem setPayload_cur : (s.setPayload v).cur = s.cur := (rfl)
@[simp] theorem setPayload_ready : (s.setPayload v).ready = s.ready := (rfl)
@[simp] theorem setPayload_inbox : (s.setPayload v).inbox = s.inbox := (rfl)
@[simp] theorem setPayload_payload : (s.setPayload v).payload = v := (rfl)
@[simp] theorem setPayload_outbox : (s.setPayload v).outbox = s.outbox := (rfl)
@[simp] theorem setPayload_draws : (s.setPayload v).draws = s.draws := (rfl)

end setPayload

section countDraw
variable (s : State)

@[simp] theorem countDraw_p : s.countDraw.p = s.p := (rfl)
@[simp] theorem countDraw_q : s.countDraw.q = s.q := (rfl)
@[simp] theorem countDraw_cnt : s.countDraw.cnt = s.cnt := (rfl)
@[simp] theorem countDraw_ksbuf : s.countDraw.ksbuf = s.ksbuf := (rfl)
@[simp] theorem countDraw_cur : s.countDraw.cur = s.cur := (rfl)
@[simp] theorem countDraw_ready : s.countDraw.ready = s.ready := (rfl)
@[simp] theorem countDraw_inbox : s.countDraw.inbox = s.inbox := (rfl)
@[simp] theorem countDraw_payload : s.countDraw.payload = s.payload := (rfl)
@[simp] theorem countDraw_outbox : s.countDraw.outbox = s.outbox := (rfl)
@[simp] theorem countDraw_draws : s.countDraw.draws = s.draws + 1 := (rfl)

end countDraw

section drawKsbuf
variable (s : State)

@[simp] theorem drawKsbuf_p : s.drawKsbuf.p = s.p := (rfl)
@[simp] theorem drawKsbuf_q : s.drawKsbuf.q = s.q := (rfl)
@[simp] theorem drawKsbuf_cnt : s.drawKsbuf.cnt = s.cnt := (rfl)
@[simp] theorem drawKsbuf_ksbuf : s.drawKsbuf.ksbuf = Config.afterInit s.draws s.ksbuf := (rfl)
@[simp] theorem drawKsbuf_cur : s.drawKsbuf.cur = s.cur := (rfl)
@[simp] theorem drawKsbuf_ready : s.drawKsbuf.ready = s.ready := (rfl)
@[simp] theorem drawKsbuf_inbox : s.drawKsbuf.inbox = s.inbox := (rfl)
@[simp] theorem drawKsbuf_payload : s.drawKsbuf.payload = s.payload := (rfl)
@[simp] theorem drawKsbuf_outbox : s.drawKsbuf.outbox = s.outbox := (rfl)
@[simp] theorem drawKsbuf_draws : s.drawKsbuf.draws = s.draws + 1 := (rfl)

end drawKsbuf

section send
variable (s : State) (v : Response)

@[simp] theorem send_p : (s.send v).p = s.p := (rfl)
@[simp] theorem send_q : (s.send v).q = s.q := (rfl)
@[simp] theorem send_cnt : (s.send v).cnt = s.cnt := (rfl)
@[simp] theorem send_ksbuf : (s.send v).ksbuf = s.ksbuf := (rfl)
@[simp] theorem send_cur : (s.send v).cur = s.cur := (rfl)
@[simp] theorem send_ready : (s.send v).ready = s.ready := (rfl)
@[simp] theorem send_inbox : (s.send v).inbox = s.inbox := (rfl)
@[simp] theorem send_payload : (s.send v).payload = s.payload := (rfl)
@[simp] theorem send_outbox : (s.send v).outbox = s.outbox ++ [v] := (rfl)
@[simp] theorem send_draws : (s.send v).draws = s.draws := (rfl)

end send

@[simp] theorem table_p (s : State) : s.table .p = s.p := (rfl)
@[simp] theorem table_q (s : State) : s.table .q = s.q := (rfl)
@[simp] theorem other_p : TableName.other .p = .q := (rfl)
@[simp] theorem other_q : TableName.other .q = .p := (rfl)
@[simp] theorem other_other (n : TableName) : n.other.other = n := by cases n <;> rfl

@[simp] theorem storage_p (s : State) : s.storage.p = s.p := (rfl)
@[simp] theorem storage_q (s : State) : s.storage.q = s.q := (rfl)
@[simp] theorem storage_ksbuf (s : State) : s.storage.ksbuf = s.ksbuf := (rfl)

/-- A write through a name is read back through it. -/
@[simp] theorem table_setTable_self (s : State) (n : TableName) (t : Table) :
    (s.setTable n t).table n = t := by cases n <;> rfl

/-- A write through a name leaves the other table alone. -/
@[simp] theorem table_setTable_other (s : State) (n : TableName) (t : Table) :
    (s.setTable n t).table n.other = s.table n.other := by cases n <;> rfl

/-- What a write of a table leaves alone, whichever table it is. -/
theorem setTable_rest (s : State) (n : TableName) (t : Table) :
    (s.setTable n t).cnt = s.cnt ∧ (s.setTable n t).ksbuf = s.ksbuf ∧ (s.setTable n t).cur = s.cur
      ∧ (s.setTable n t).ready = s.ready ∧ (s.setTable n t).inbox = s.inbox
      ∧ (s.setTable n t).payload = s.payload ∧ (s.setTable n t).outbox = s.outbox
      ∧ (s.setTable n t).draws = s.draws := by
  cases n <;> exact ⟨rfl, rfl, rfl, rfl, rfl, rfl, rfl, rfl⟩

/-- The State after power-on, field by field (R170). -/
@[simp] theorem reset_ready : State.reset.ready = false := (rfl)
@[simp] theorem reset_cnt : State.reset.cnt = 0 := (rfl)
@[simp] theorem reset_cur : State.reset.cur = 64 := (rfl)
@[simp] theorem reset_inbox : State.reset.inbox = [] := (rfl)
@[simp] theorem reset_payload : State.reset.payload = [] := (rfl)
@[simp] theorem reset_outbox : State.reset.outbox = [] := (rfl)
@[simp] theorem reset_draws : State.reset.draws = 0 := (rfl)

end Sys2Proof.Machine
end

