-- ==== Sys2Proof/Laws/Ops.lean ====
section
/-!
SUPPORT. What each shared operation of `Machine/Ops.lean` can do, said once: reads after writes, taking a
payload, responding, and the resets.
-/

namespace Sys2Proof.Machine

/-! ### Tables and buffer -/

@[simp] theorem tableRead_tableWrite_self (t : Table) (i : Index) (v : Word) :
    tableRead (tableWrite t i v) i = v := by
  simp [tableRead, tableWrite]

theorem tableRead_tableWrite_ne (t : Table) {i k : Index} (v : Word) (hne : k ≠ i) :
    tableRead (tableWrite t i v) k = tableRead t k := by
  have : i.toNat ≠ k.toNat := fun e => hne (BitVec.eq_of_toNat_eq e.symm)
  simp [tableRead, tableWrite, this]

/-- Two tables that read the same everywhere are the same. -/
theorem table_ext {t u : Table} (heq : ∀ i, tableRead t i = tableRead u i) : t = u := by
  apply Vector.ext
  intro k hk
  have := heq (BitVec.ofNat 10 k)
  simpa [tableRead, Nat.mod_eq_of_lt hk] using this

/-! ### Taking a payload -/

/-- Everything `withPayload` can do: run its body on the payload, which is then gone, or refuse a payload
of another length. -/
theorem withPayload_cases (n : Nat) (s : State) (body : List Byte → State → State) :
    (s.payload.length = n ∧ withPayload n s body = .next (body s.payload (s.setPayload [])))
      ∨ (s.payload.length ≠ n ∧ withPayload n s body = .refused .malformedTransaction) := by
  unfold withPayload
  by_cases hl : s.payload.length = n
  · exact .inl ⟨hl, if_pos hl⟩
  · exact .inr ⟨hl, if_neg hl⟩

theorem withPayload_of_length {n : Nat} {s : State} (body : List Byte → State → State)
    (hl : s.payload.length = n) :
    withPayload n s body = .next (body s.payload (s.setPayload [])) := if_pos hl

theorem withPayload_next {n : Nat} {s t : State} {body : List Byte → State → State}
    (hn : withPayload n s body = .next t) :
    s.payload.length = n ∧ t = body s.payload (s.setPayload []) := by
  rcases withPayload_cases n s body with ⟨hl, he⟩ | ⟨_, he⟩
  · rw [he] at hn
    cases hn
    exact ⟨hl, rfl⟩
  · rw [he] at hn
    cases hn

theorem withPayload_refused_iff {n : Nat} {s : State} {body : List Byte → State → State} :
    withPayload n s body = .refused .malformedTransaction ↔ s.payload.length ≠ n := by
  rcases withPayload_cases n s body with ⟨hl, he⟩ | ⟨hl, he⟩ <;> simp [he, hl]

/-! ### Responses -/

@[simp] theorem respondOk_eq (d : ResponseData) (s : State) :
    respondOk d s = s.send ⟨0x00#8, d⟩ := (rfl)

@[simp] theorem raiseError_eq (e : Status) (s : State) :
    raiseError e s = s.send ⟨e.code, .nothing⟩ := (rfl)

/-- OK is the only status with code 0x00 (R150). -/
theorem code_eq_zero_iff (e : Status) : e.code = 0x00#8 ↔ e = .ok := by
  cases e <;> decide

theorem code_toNat_le (e : Status) : e.code.toNat ≤ 4 := by
  cases e <;> decide

/-! ### Resets -/

/-- What every reset leaves (R170), field by field. -/
theorem resetTo_eq (x : Storage) (s : State) :
    resetTo x s = { s with
      p := x.p, q := x.q, ksbuf := x.ksbuf, ready := false, cnt := 0, cur := 64, payload := []
      draws := s.draws + 1 } := (rfl)

section resetTo
variable (x : Storage) (s : State)

@[simp] theorem resetTo_p : (resetTo x s).p = x.p := (rfl)
@[simp] theorem resetTo_q : (resetTo x s).q = x.q := (rfl)
@[simp] theorem resetTo_cnt : (resetTo x s).cnt = 0 := (rfl)
@[simp] theorem resetTo_ksbuf : (resetTo x s).ksbuf = x.ksbuf := (rfl)
@[simp] theorem resetTo_cur : (resetTo x s).cur = 64 := (rfl)
@[simp] theorem resetTo_ready : (resetTo x s).ready = false := (rfl)
@[simp] theorem resetTo_inbox : (resetTo x s).inbox = s.inbox := (rfl)
@[simp] theorem resetTo_payload : (resetTo x s).payload = [] := (rfl)
@[simp] theorem resetTo_outbox : (resetTo x s).outbox = s.outbox := (rfl)
@[simp] theorem resetTo_draws : (resetTo x s).draws = s.draws + 1 := (rfl)

end resetTo

/-- RST between transactions is a reset to some storage (R170, R35). -/
theorem applyReset_eq (s : State) : ∃ x, applyReset s = resetTo x s := ⟨_, (rfl)⟩

/-- A loss of power is a reset to some storage (R163, U12). -/
theorem losePower_eq (s : State) : ∃ x, losePower s = resetTo x s := ⟨_, (rfl)⟩

/-- An abandoned command is a reset to some storage (R172, U1, U2). -/
theorem abandonCommand_of_length {w : Word} {bytes : List Byte} (s : State)
    (hl : bytes.length = payloadLength w) : ∃ x, abandonCommand w bytes s = .next (resetTo x s) :=
  ⟨_, if_pos hl⟩

/-- A transaction of the wrong length is refused although it is abandoned (R71). -/
theorem abandonCommand_of_length_ne {w : Word} {bytes : List Byte} (s : State)
    (hl : bytes.length ≠ payloadLength w) : abandonCommand w bytes s = .refused .malformedTransaction :=
  if_neg hl

theorem abandonCommand_next {w : Word} {bytes : List Byte} {s t : State}
    (hn : abandonCommand w bytes s = .next t) :
    bytes.length = payloadLength w ∧ ∃ x, t = resetTo x s := by
  by_cases hl : bytes.length = payloadLength w
  · obtain ⟨x, hx⟩ := abandonCommand_of_length s hl
    rw [hx] at hn
    cases hn
    exact ⟨hl, x, rfl⟩
  · rw [abandonCommand_of_length_ne s hl] at hn
    cases hn

end Sys2Proof.Machine
end

