-- ==== Sys2Proof/Laws/Steps.lean ====
section
/-!
SUPPORT. What a step and a run of steps do: the fields they leave alone, the two tables, and that they
depend on P, Q and CNT alone.
-/

namespace Sys2Proof.Machine

/-! ### One step -/

section stepFunction
variable (s : State)

@[simp] theorem stepFunction_cnt : (stepFunction s).1.cnt = s.cnt + 1 := (rfl)
@[simp] theorem stepFunction_ksbuf : (stepFunction s).1.ksbuf = s.ksbuf := (setTable_rest s _ _).2.1
@[simp] theorem stepFunction_cur : (stepFunction s).1.cur = s.cur := (setTable_rest s _ _).2.2.1
@[simp] theorem stepFunction_ready : (stepFunction s).1.ready = s.ready := (setTable_rest s _ _).2.2.2.1
@[simp] theorem stepFunction_inbox : (stepFunction s).1.inbox = s.inbox :=
  (setTable_rest s _ _).2.2.2.2.1
@[simp] theorem stepFunction_payload : (stepFunction s).1.payload = s.payload :=
  (setTable_rest s _ _).2.2.2.2.2.1
@[simp] theorem stepFunction_outbox : (stepFunction s).1.outbox = s.outbox :=
  (setTable_rest s _ _).2.2.2.2.2.2.1
@[simp] theorem stepFunction_draws : (stepFunction s).1.draws = s.draws :=
  (setTable_rest s _ _).2.2.2.2.2.2.2

/-- The table CNT makes active is written at one entry (R106). -/
theorem stepFunction_active :
    (stepFunction s).1.table (activeTable s.cnt)
      = tableWrite (s.table (activeTable s.cnt)) (stepIndex s.cnt)
          (updateValue (s.table (activeTable s.cnt)) (s.table (activeTable s.cnt).other)
            (stepIndex s.cnt)) :=
  table_setTable_self s (activeTable s.cnt) _

/-- The other table is not written (R106). -/
theorem stepFunction_passive :
    (stepFunction s).1.table (activeTable s.cnt).other = s.table (activeTable s.cnt).other :=
  table_setTable_other s (activeTable s.cnt) _

/-- The word of a step, by the active table after the write (R106). -/
theorem stepFunction_word :
    (stepFunction s).2
      = outputWord ((stepFunction s).1.table (activeTable s.cnt)) (s.table (activeTable s.cnt).other)
          (stepIndex s.cnt) := by
  rw [stepFunction_active]
  rfl

end stepFunction

/-- P is active while CNT is below N (R24). -/
theorem activeTable_of_lt {cnt : BitVec 11} (hlt : cnt.toNat < 1024) : activeTable cnt = .p := by
  have hbit : cnt.getLsbD 10 = false := by
    have hz : cnt.toNat / 2 ^ 10 = 0 := by omega
    simp only [BitVec.getLsbD, Nat.testBit, Nat.shiftRight_eq_div_pow, hz]
    rfl
  rw [activeTable, hbit]
  rfl

/-- Q is active from N on (R24). -/
theorem activeTable_of_ge {cnt : BitVec 11} (hge : 1024 ≤ cnt.toNat) : activeTable cnt = .q := by
  have hbit : cnt.getLsbD 10 = true := by
    have hz : cnt.toNat / 2 ^ 10 = 1 := by omega
    simp only [BitVec.getLsbD, Nat.testBit, Nat.shiftRight_eq_div_pow, hz]
    rfl
  rw [activeTable, hbit]
  rfl

/-- j = CNT mod N (R25). -/
theorem stepIndex_toNat (cnt : BitVec 11) : (stepIndex cnt).toNat = cnt.toNat % 1024 := by
  simp [stepIndex, BitVec.extractLsb'_toNat]

/-- A step depends on P, Q and CNT alone. -/
theorem stepFunction_congr {s t : State} (hp : s.p = t.p) (hq : s.q = t.q) (hc : s.cnt = t.cnt) :
    (stepFunction s).2 = (stepFunction t).2 ∧ (stepFunction s).1.p = (stepFunction t).1.p
      ∧ (stepFunction s).1.q = (stepFunction t).1.q := by
  have htab : ∀ n, s.table n = t.table n := fun n => by cases n <;> assumption
  refine ⟨by simp only [stepFunction, hc, htab], ?_⟩
  have ha := stepFunction_active s
  have hb := stepFunction_passive s
  rw [hc, htab, htab, ← stepFunction_active t] at ha
  rw [hc, htab, ← stepFunction_passive t] at hb
  cases hact : activeTable t.cnt <;> rw [hact] at ha hb
  · exact ⟨ha, hb⟩
  · exact ⟨hb, ha⟩

/-! ### A run of steps -/

@[simp] theorem runSteps_zero (s : State) : runSteps 0 s = (s, []) := (rfl)

theorem runSteps_succ (k : Nat) (s : State) :
    runSteps (k + 1) s
      = ((runSteps k (stepFunction s).1).1, (stepFunction s).2 :: (runSteps k (stepFunction s).1).2) :=
  rfl

/-- A run of steps is a run of the first ones and then a run of the others. -/
theorem runSteps_add (k m : Nat) (s : State) :
    runSteps (k + m) s
      = ((runSteps m (runSteps k s).1).1, (runSteps k s).2 ++ (runSteps m (runSteps k s).1).2) := by
  induction k generalizing s with
  | zero => simp
  | succ k ih =>
    rw [Nat.succ_add, runSteps_succ, ih, runSteps_succ]
    rfl

@[simp] theorem runSteps_length (k : Nat) (s : State) : (runSteps k s).2.length = k := by
  induction k generalizing s with
  | zero => simp
  | succ k ih => simp [runSteps_succ, ih]

/-- The words of a run, one by one. -/
theorem runSteps_word {k i : Nat} (s : State) (hi : i < k) :
    (runSteps k s).2.getD i 0 = (stepFunction (runSteps i s).1).2 := by
  induction k generalizing s i with
  | zero => omega
  | succ k ih =>
    cases i with
    | zero => simp [runSteps_succ]
    | succ i =>
      rw [runSteps_succ, runSteps_succ]
      simpa using ih (stepFunction s).1 (Nat.lt_of_succ_lt_succ hi)

section runSteps
variable (k : Nat) (s : State)

/-- What a run of steps leaves alone, and what it does to CNT. -/
theorem runSteps_rest :
    (runSteps k s).1.cnt = s.cnt + BitVec.ofNat 11 k ∧ (runSteps k s).1.ksbuf = s.ksbuf
      ∧ (runSteps k s).1.cur = s.cur ∧ (runSteps k s).1.ready = s.ready
      ∧ (runSteps k s).1.inbox = s.inbox ∧ (runSteps k s).1.payload = s.payload
      ∧ (runSteps k s).1.outbox = s.outbox ∧ (runSteps k s).1.draws = s.draws := by
  induction k generalizing s with
  | zero => simp
  | succ k ih =>
    have := ih (stepFunction s).1
    refine ⟨?_, by simpa [runSteps_succ] using this.2⟩
    rw [runSteps_succ]
    simp only [this.1, stepFunction_cnt]
    apply BitVec.eq_of_toNat_eq
    simp [BitVec.toNat_add]
    omega

theorem runSteps_cnt : (runSteps k s).1.cnt = s.cnt + BitVec.ofNat 11 k := (runSteps_rest k s).1
@[simp] theorem runSteps_ksbuf : (runSteps k s).1.ksbuf = s.ksbuf := (runSteps_rest k s).2.1
@[simp] theorem runSteps_cur : (runSteps k s).1.cur = s.cur := (runSteps_rest k s).2.2.1
@[simp] theorem runSteps_ready : (runSteps k s).1.ready = s.ready := (runSteps_rest k s).2.2.2.1
@[simp] theorem runSteps_inbox : (runSteps k s).1.inbox = s.inbox := (runSteps_rest k s).2.2.2.2.1
@[simp] theorem runSteps_payload : (runSteps k s).1.payload = s.payload :=
  (runSteps_rest k s).2.2.2.2.2.1
@[simp] theorem runSteps_outbox : (runSteps k s).1.outbox = s.outbox :=
  (runSteps_rest k s).2.2.2.2.2.2.1
@[simp] theorem runSteps_draws : (runSteps k s).1.draws = s.draws := (runSteps_rest k s).2.2.2.2.2.2.2

end runSteps

/-- A run of steps depends on P, Q and CNT alone. -/
theorem runSteps_congr (k : Nat) {s t : State} (hp : s.p = t.p) (hq : s.q = t.q) (hc : s.cnt = t.cnt) :
    (runSteps k s).2 = (runSteps k t).2 ∧ (runSteps k s).1.p = (runSteps k t).1.p
      ∧ (runSteps k s).1.q = (runSteps k t).1.q := by
  induction k generalizing s t with
  | zero => simp [hp, hq]
  | succ k ih =>
    obtain ⟨hw, hp', hq'⟩ := stepFunction_congr hp hq hc
    obtain ⟨ihw, ihp, ihq⟩ := ih hp' hq' (by simp [hc])
    simp [runSteps_succ, hw, ihw, ihp, ihq]

end Sys2Proof.Machine
end

