-- ==== Sys2Proof/Laws/Init.lean ====
section
/-!
SUPPORT. What the parts of INIT do: unpacking, the length of the expansion, the fill, and the fields INIT
leaves alone.
-/

namespace Sys2Proof.Machine

@[simp] theorem expandFrom_zero (i : Nat) (w : List Word) : expandFrom 0 i w = w := by
  rfl

/-- Four bytes make one word. -/
theorem unpackWords_length (bytes : List Byte) : (unpackWords bytes).length = bytes.length / 4 := by
  induction bytes using unpackWords.induct with
  | case1 b0 b1 b2 b3 rest ih =>
    simp only [unpackWords, List.length_cons, ih]
    omega
  | case2 bytes hne =>
    match bytes, hne with
    | [], _ => simp [unpackWords]
    | [_], _ => simp [unpackWords]
    | [_, _], _ => simp [unpackWords]
    | [_, _, _], _ => simp [unpackWords]
    | b0 :: b1 :: b2 :: b3 :: rest, hne => exact absurd rfl (hne b0 b1 b2 b3 rest)

theorem expandFrom_succ (k i : Nat) (w : List Word) :
    expandFrom (k + 1) i w = expandFrom k (i + 1) (expandWord w i :: w) := (rfl)

@[simp] theorem expandFrom_length (k i : Nat) (w : List Word) :
    (expandFrom k i w).length = k + w.length := by
  induction k generalizing i w with
  | zero => simp
  | succ k ih =>
    rw [expandFrom_succ, ih, List.length_cons]
    omega

section fillTables
variable (key iv : List Byte) (s : State)

@[simp] theorem fillTables_p :
    (fillTables key iv s).p = fillTable (expand (unpackWords key) (unpackWords iv)) 512 := (rfl)
@[simp] theorem fillTables_q :
    (fillTables key iv s).q = fillTable (expand (unpackWords key) (unpackWords iv)) 1536 := (rfl)
@[simp] theorem fillTables_cnt : (fillTables key iv s).cnt = 0 := (rfl)
@[simp] theorem fillTables_ksbuf : (fillTables key iv s).ksbuf = s.ksbuf := (rfl)
@[simp] theorem fillTables_inbox : (fillTables key iv s).inbox = s.inbox := (rfl)
@[simp] theorem fillTables_payload : (fillTables key iv s).payload = s.payload := (rfl)
@[simp] theorem fillTables_outbox : (fillTables key iv s).outbox = s.outbox := (rfl)
@[simp] theorem fillTables_draws : (fillTables key iv s).draws = s.draws := (rfl)

@[simp] theorem initEngine_p :
    (initEngine key iv s).p = (runSteps 4096 (fillTables key iv s)).1.p := by
  simp [initEngine, warmUpSteps]
@[simp] theorem initEngine_q :
    (initEngine key iv s).q = (runSteps 4096 (fillTables key iv s)).1.q := by
  simp [initEngine, warmUpSteps]
@[simp] theorem initEngine_cnt : (initEngine key iv s).cnt = 0 := by
  simp [initEngine, warmUpSteps]
@[simp] theorem initEngine_cur : (initEngine key iv s).cur = 64 := by
  simp [initEngine, warmUpSteps]
@[simp] theorem initEngine_ready : (initEngine key iv s).ready = true := by
  simp [initEngine, warmUpSteps]
@[simp] theorem initEngine_ksbuf : (initEngine key iv s).ksbuf = Config.afterInit s.draws s.ksbuf := by
  simp [initEngine, warmUpSteps]
@[simp] theorem initEngine_inbox : (initEngine key iv s).inbox = s.inbox := by
  simp [initEngine, warmUpSteps]
@[simp] theorem initEngine_payload : (initEngine key iv s).payload = s.payload := by
  simp [initEngine, warmUpSteps]
@[simp] theorem initEngine_outbox : (initEngine key iv s).outbox = s.outbox := by
  simp [initEngine, warmUpSteps]
@[simp] theorem initEngine_draws : (initEngine key iv s).draws = s.draws + 1 := by
  simp [initEngine, warmUpSteps]

end fillTables

/-- The length check answers no error exactly for the two required lengths (R81). -/
theorem lengthError_eq_none_iff (klen ivlen : Nat) :
    lengthError klen ivlen = none ↔ klen = 32 ∧ ivlen = 32 := by
  unfold lengthError
  split <;> [skip; split] <;> simp_all

end Sys2Proof.Machine
end

