-- ==== Sys2Proof/Laws/Stream.lean ====
section
/-!
SUPPORT. What a refill, the consumption of a byte and a run of them do.
-/

namespace Sys2Proof.Machine

/-! ### Refill -/

section refill
variable (s : State)

@[simp] theorem refill_p : (refill s).p = (runSteps 16 s).1.p := by simp [refill, batchWords]
@[simp] theorem refill_q : (refill s).q = (runSteps 16 s).1.q := by simp [refill, batchWords]
@[simp] theorem refill_cnt : (refill s).cnt = s.cnt + 16 := by
  simp [refill, batchWords, runSteps_cnt]
@[simp] theorem refill_ksbuf : (refill s).ksbuf = packBuffer (runSteps 16 s).2 := by
  simp [refill, batchWords]
@[simp] theorem refill_cur : (refill s).cur = 0 := by simp [refill, batchWords]
@[simp] theorem refill_ready : (refill s).ready = s.ready := by simp [refill, batchWords]
@[simp] theorem refill_inbox : (refill s).inbox = s.inbox := by simp [refill, batchWords]
@[simp] theorem refill_payload : (refill s).payload = s.payload := by simp [refill, batchWords]
@[simp] theorem refill_outbox : (refill s).outbox = s.outbox := by simp [refill, batchWords]
@[simp] theorem refill_draws : (refill s).draws = s.draws := by simp [refill, batchWords]

end refill

/-! ### One byte -/

/-- The state a byte is consumed from: refilled if the buffer is exhausted (R131). -/
theorem takeByte_eq (s : State) :
    takeByte s = if s.cur = 64
      then ((refill s).setCur 1, bufferRead (refill s).ksbuf 0)
      else (s.setCur (advanceCursor s.cur), bufferRead s.ksbuf (bufferIndex s.cur)) := by
  unfold takeByte
  by_cases hc : s.cur = 64
  · simp only [hc, if_true]
    rfl
  · simp only [hc, if_false]

/-- Below 64 the cursor moves on by one. -/
theorem advanceCursor_val {c : Fin 65} (hlt : c.val < 64) : (advanceCursor c).val = c.val + 1 := by
  simp [advanceCursor, Fin.val_add]
  omega

/-- What consuming a byte leaves alone. -/
theorem takeByte_rest (s : State) :
    (takeByte s).1.ready = s.ready ∧ (takeByte s).1.inbox = s.inbox
      ∧ (takeByte s).1.payload = s.payload ∧ (takeByte s).1.outbox = s.outbox
      ∧ (takeByte s).1.draws = s.draws := by
  rw [takeByte_eq]
  split <;> simp

/-! ### A run of bytes -/

@[simp] theorem applyBytes_nil (s : State) : applyBytes [] s = (s, []) := (rfl)

theorem applyBytes_cons (b : Byte) (bs : List Byte) (s : State) :
    applyBytes (b :: bs) s
      = ((applyBytes bs (takeByte s).1).1,
          (b ^^^ (takeByte s).2) :: (applyBytes bs (takeByte s).1).2) := rfl

/-- Consuming a joined input is consuming its parts in order. -/
theorem applyBytes_append (xs ys : List Byte) (s : State) :
    applyBytes (xs ++ ys) s
      = ((applyBytes ys (applyBytes xs s).1).1,
          (applyBytes xs s).2 ++ (applyBytes ys (applyBytes xs s).1).2) := by
  induction xs generalizing s with
  | nil => simp
  | cons x xs ih => simp [applyBytes_cons, ih]

@[simp] theorem applyBytes_length (xs : List Byte) (s : State) : (applyBytes xs s).2.length = xs.length := by
  induction xs generalizing s with
  | nil => rfl
  | cons x xs ih => simp [applyBytes_cons, ih]

section applyBytes
variable (xs : List Byte) (s : State)

/-- What consuming bytes leaves alone. -/
theorem applyBytes_rest :
    (applyBytes xs s).1.ready = s.ready ∧ (applyBytes xs s).1.inbox = s.inbox
      ∧ (applyBytes xs s).1.payload = s.payload ∧ (applyBytes xs s).1.outbox = s.outbox
      ∧ (applyBytes xs s).1.draws = s.draws := by
  induction xs generalizing s with
  | nil => simp
  | cons x xs ih =>
    have hx := ih (takeByte s).1
    have hb := takeByte_rest s
    rw [applyBytes_cons]
    exact ⟨hx.1.trans hb.1, hx.2.1.trans hb.2.1, hx.2.2.1.trans hb.2.2.1,
      hx.2.2.2.1.trans hb.2.2.2.1, hx.2.2.2.2.trans hb.2.2.2.2⟩

@[simp] theorem applyBytes_ready : (applyBytes xs s).1.ready = s.ready := (applyBytes_rest xs s).1
@[simp] theorem applyBytes_inbox : (applyBytes xs s).1.inbox = s.inbox := (applyBytes_rest xs s).2.1
@[simp] theorem applyBytes_payload : (applyBytes xs s).1.payload = s.payload :=
  (applyBytes_rest xs s).2.2.1
@[simp] theorem applyBytes_outbox : (applyBytes xs s).1.outbox = s.outbox :=
  (applyBytes_rest xs s).2.2.2.1
@[simp] theorem applyBytes_draws : (applyBytes xs s).1.draws = s.draws := (applyBytes_rest xs s).2.2.2.2

end applyBytes

end Sys2Proof.Machine
end

