-- ==== Sys2Proof/Laws/Step.lean ====
section
/-!
SUPPORT. What a command and a step can do, said once: each meaning as one equation, and the cases of a
step that answers a next state.
-/

namespace Sys2Proof.Machine

/-! ### The commands -/

/-- What APPLY does with its payload once it is taken (R130). -/
def applyBody (bytes : List Byte) (s : State) : State :=
  if s.ready then (applyBytes bytes s).1.send ⟨0x00#8, .bytes (applyBytes bytes s).2⟩
  else s.send ⟨0x03#8, .nothing⟩

/-- What STEP does once its empty payload is taken (R110). -/
def stepBody (_ : List Byte) (s : State) : State :=
  if s.ready then (stepFunction s).1.send ⟨0x00#8, .word (stepFunction s).2⟩
  else s.send ⟨0x03#8, .nothing⟩

/-- What INIT does with its payload once it is taken (R80). -/
def initBody (klen ivlen : Nat) (bytes : List Byte) (s : State) : State :=
  match lengthError klen ivlen with
  | some e => s.send ⟨e.code, .nothing⟩
  | none => (initEngine (bytes.take klen) (bytes.drop klen) s).send ⟨0x00#8, .nothing⟩

theorem exec_step_def (s : State) : exec .step s = withPayload 0 s stepBody := by
  simp only [exec, execStep]
  congr 1

theorem exec_apply_def (len : Nat) (s : State) : exec (.apply len) s = withPayload len s applyBody := by
  simp only [exec, execApply]
  congr 1

theorem exec_init_def (klen ivlen : Nat) (s : State) :
    exec (.init klen ivlen) s = withPayload (klen + ivlen) s (initBody klen ivlen) := by
  simp only [exec, execInit]
  congr 1

/-- STEP (R110) on a payload of the right length, which is none. -/
theorem exec_step_eq {s : State} (hl : s.payload = []) :
    exec .step s = .next (stepBody [] (s.setPayload [])) := by
  rw [exec_step_def, withPayload_of_length _ (by rw [hl]; rfl), hl]

/-- APPLY (R130) on a payload of the right length. -/
theorem exec_apply_eq {len : Nat} {s : State} (hl : s.payload.length = len) :
    exec (.apply len) s = .next (applyBody s.payload (s.setPayload [])) := by
  rw [exec_apply_def, withPayload_of_length _ hl]

/-- INIT (R80) on a payload of the right length. -/
theorem exec_init_eq {klen ivlen : Nat} {s : State} (hl : s.payload.length = klen + ivlen) :
    exec (.init klen ivlen) s = .next (initBody klen ivlen s.payload (s.setPayload [])) := by
  rw [exec_init_def, withPayload_of_length _ hl]

/-- Every command is a body run on its payload. -/
theorem exec_body (i : Instr) (s : State) :
    ∃ body, exec i s = withPayload i.payloadLength s body := by
  cases i with
  | init klen ivlen => exact ⟨_, exec_init_def klen ivlen s⟩
  | step => exact ⟨_, exec_step_def s⟩
  | apply len => exact ⟨_, exec_apply_def len s⟩

/-- A command that answers a next state had a payload of the length it announces (R66, R71). -/
theorem exec_next_length {i : Instr} {s t : State} (hn : exec i s = .next t) :
    s.payload.length = i.payloadLength := by
  obtain ⟨body, hb⟩ := exec_body i s
  exact (withPayload_next (hb ▸ hn)).1

/-- A command refuses only a malformed transaction. -/
theorem exec_refused {i : Instr} {s : State} {r : Refusal} (hr : exec i s = .refused r) :
    s.payload.length ≠ i.payloadLength ∧ r = .malformedTransaction := by
  obtain ⟨body, hb⟩ := exec_body i s
  rw [hb] at hr
  rcases withPayload_cases i.payloadLength s body with ⟨_, he⟩ | ⟨hl, he⟩ <;> rw [he] at hr <;> cases hr
  exact ⟨hl, rfl⟩

/-! ### A step, by the host's next input -/

theorem step_idle {s : State} (hi : s.inbox = []) : step s = .next s := by
  simp [step, fetch, hi]

theorem step_command {s : State} {w : Word} {bytes : List Byte} {rest : List HostInput} {i : Instr}
    (hi : s.inbox = .command w bytes :: rest) (hd : decode w = .command i) :
    step s = exec i ((s.setInbox rest).setPayload bytes) := by
  simp [step, fetch, hi, hd, receive]

theorem step_illegal {s : State} {w : Word} {bytes : List Byte} {rest : List HostInput} {why : Illegal}
    (hi : s.inbox = .command w bytes :: rest) (hd : decode w = .illegal why) :
    step s = answerIllegal ((s.setInbox rest).setPayload bytes) := by
  simp [step, fetch, hi, hd, receive]

theorem step_abandoned {s : State} {w : Word} {bytes : List Byte} {rest : List HostInput}
    (hi : s.inbox = .commandAbandoned w bytes :: rest) :
    step s = abandonCommand w bytes (s.setInbox rest) := by
  simp [step, fetch, hi]

theorem step_reset {s : State} {rest : List HostInput} (hi : s.inbox = .reset :: rest) :
    step s = .next (applyReset (s.setInbox rest)) := by
  simp [step, fetch, hi]

theorem step_powerLoss {s : State} {rest : List HostInput} (hi : s.inbox = .powerLoss :: rest) :
    step s = .next (losePower (s.setInbox rest)) := by
  simp [step, fetch, hi]

/-- Everything a step that answers a next state can have done: kept an idle engine, run a decoded command,
answered an illegal word, or reset the engine, leaving some storage. -/
theorem step_cases {s t : State} (hs : step s = .next t) :
    (s.inbox = [] ∧ t = s)
    ∨ (∃ w bytes rest i, s.inbox = .command w bytes :: rest ∧ decode w = .command i
        ∧ bytes.length = i.payloadLength ∧ exec i ((s.setInbox rest).setPayload bytes) = .next t)
    ∨ (∃ w rest why, s.inbox = .command w [] :: rest ∧ decode w = .illegal why
        ∧ t = ((s.setInbox rest).setPayload []).send ⟨0x04#8, .nothing⟩)
    ∨ (∃ x rest y, s.inbox = x :: rest ∧ x.isReset = true ∧ t = resetTo y (s.setInbox rest)) := by
  rcases hi : s.inbox with _ | ⟨x, rest⟩
  · rw [step_idle hi] at hs
    cases hs
    exact .inl ⟨rfl, rfl⟩
  · refine .inr ?_
    cases x with
    | command w bytes =>
      cases hd : decode w with
      | command i =>
        rw [step_command hi hd] at hs
        exact .inl ⟨w, bytes, rest, i, rfl, hd, exec_next_length hs, hs⟩
      | illegal why =>
        rw [step_illegal hi hd] at hs
        obtain ⟨hl, rfl⟩ := withPayload_next hs
        have hb : bytes = [] := List.eq_nil_of_length_eq_zero hl
        subst hb
        exact .inr (.inl ⟨w, rest, why, rfl, hd, rfl⟩)
    | commandAbandoned w bytes =>
      rw [step_abandoned hi] at hs
      obtain ⟨_, y, hy⟩ := abandonCommand_next hs
      exact .inr (.inr ⟨_, rest, y, rfl, rfl, hy⟩)
    | reset =>
      rw [step_reset hi] at hs
      cases hs
      exact .inr (.inr ⟨_, rest, _, rfl, rfl, rfl⟩)
    | powerLoss =>
      rw [step_powerLoss hi] at hs
      cases hs
      exact .inr (.inr ⟨_, rest, _, rfl, rfl, rfl⟩)

end Sys2Proof.Machine
end

