-- ==== Sys2Proof/Laws/Claims.lean ====
section
/-!
SUPPORT. The terms of `Safety.lean` beside the model's own: entries and buffer bytes by number, index
subtraction by number, and the keystream along a run.
-/

namespace Sys2Proof.Machine

@[simp] theorem run_zero (s : State) : run 0 s = .next s := (rfl)

/-- A run goes on from the state its first step answers. -/
theorem run_succ {s t : State} (n : Nat) (hs : step s = .next t) : run (n + 1) s = run n t := by
  simp only [run, hs]

/-- An entry by number is the entry at the index of that number. -/
theorem entry_eq (t : Table) (k : Nat) : entry t k = tableRead t (BitVec.ofNat 10 k) := by
  simp [entry, tableRead]

theorem tableRead_eq_entry (t : Table) (i : Index) : tableRead t i = entry t i.toNat := by
  rw [entry_eq, BitVec.ofNat_toNat, BitVec.setWidth_eq]

/-- Entries by number are taken modulo N. -/
theorem entry_mod (t : Table) (k : Nat) : entry t (k % 1024) = entry t k := by
  simp [entry]

/-- Tables with equal entries are equal. -/
theorem table_eq_of_entries {t u : Table} (heq : ∀ k, k < 1024 → entry t k = entry u k) : t = u :=
  table_ext fun i => by
    rw [tableRead_eq_entry, tableRead_eq_entry]
    exact heq i.toNat i.isLt

/-- `j ⊟ k` by number, for an offset not above N (R12). -/
theorem indexBack_toNat (j : Index) {k : Nat} (hk : k ≤ 1024) :
    (indexBack j k).toNat = (j.toNat + 1024 - k) % 1024 := by
  have := j.isLt
  simp only [indexBack, BitVec.toNat_sub, BitVec.toNat_ofNat]
  rcases Nat.lt_or_ge k 1024 with hlt | hge
  · rw [Nat.mod_eq_of_lt (by omega : k < 2 ^ 10)]
    omega
  · have : k = 1024 := by omega
    subst this
    omega

/-- An entry of a table written at one index. -/
theorem entry_tableWrite (t : Table) (i : Index) (v : Word) (k : Nat) :
    entry (tableWrite t i v) k = if k % 1024 = i.toNat then v else entry t k := by
  rw [entry_eq, entry_eq]
  split
  · next he =>
    have : BitVec.ofNat 10 k = i := by
      apply BitVec.eq_of_toNat_eq
      simpa using he
    rw [this, tableRead_tableWrite_self]
  · next hne =>
    apply tableRead_tableWrite_ne
    intro he
    apply hne
    rw [← he]
    simp

/-- The byte at a cursor (R26). -/
theorem bufferRead_index (b : Buffer) (c : Fin 65) :
    bufferRead b (bufferIndex c) = bufferByte b c.val := by
  simp [bufferRead, bufferIndex, bufferByte]

theorem bufferByte_mod (b : Buffer) (k : Nat) : bufferByte b (k % 64) = bufferByte b k := by
  simp [bufferByte]

/-- The bytes of words laid end to end. -/
theorem flatMap_wordBytes_length (ws : List Word) : (ws.flatMap wordBytes).length = 4 * ws.length := by
  induction ws with
  | nil => rfl
  | cons w ws ih =>
    simp only [List.flatMap_cons, List.length_append, ih, wordBytes, List.length_cons, List.length_nil]
    omega

theorem flatMap_wordBytes_getD (ws : List Word) {i : Nat} (hi : i < 4 * ws.length) :
    (ws.flatMap wordBytes).getD i 0 = byteOf (ws.getD (i / 4) 0) (i % 4) := by
  induction ws generalizing i with
  | nil => simp at hi
  | cons w ws ih =>
    rw [List.flatMap_cons]
    match i, hi with
    | 0, _ => simp [wordBytes]
    | 1, _ => simp [wordBytes]
    | 2, _ => simp [wordBytes]
    | 3, _ => simp [wordBytes]
    | i + 4, hi =>
      have hd : (i + 4) / 4 = i / 4 + 1 := by omega
      have hm : (i + 4) % 4 = i % 4 := by omega
      rw [hd, hm, List.getD_cons_succ]
      rw [← ih (by simp at hi; omega)]
      simp [wordBytes]

/-- A vector made of a list taken to its length, read by number. -/
theorem takeD_getElem {α : Type} {n i : Nat} (l : List α) (d : α) (hl : n ≤ l.length) (hi : i < n) :
    (List.takeD n l d)[i]'(by rw [List.takeD_length]; exact hi) = l.getD i d := by
  simp only [List.takeD_eq_take _ hl, List.getElem_take, List.getD_eq_getElem?_getD]
  rw [List.getElem?_eq_getElem (by omega)]
  rfl

/-- The byte a packed buffer holds: byte n of word k at 4k + n (R44). -/
theorem bufferByte_packBuffer (ws : List Word) (hl : ws.length = 16) {i : Nat} (hi : i < 64) :
    bufferByte (packBuffer ws) i = byteOf (ws.getD (i / 4) 0) (i % 4) := by
  rw [← flatMap_wordBytes_getD ws (by omega),
    ← takeD_getElem (n := 64) (ws.flatMap wordBytes) 0 (by rw [flatMap_wordBytes_length]; omega) hi]
  simp only [bufferByte, packBuffer, Nat.mod_eq_of_lt hi, Vector.getElem_mk, List.getElem_toArray]

/-- The entry a filled table holds (R85), for an array W long enough. -/
theorem entry_fillTable (w : List Word) {offset i : Nat} (hl : offset + 1024 ≤ w.length) (hi : i < 1024) :
    entry (fillTable w offset) i = w.getD (i + offset) 0 := by
  have hget : (w.drop offset).getD i 0 = w.getD (i + offset) 0 := by
    simp [List.getElem?_drop, Nat.add_comm]
  rw [← hget, ← takeD_getElem (n := 1024) (w.drop offset) 0 (by simp; omega) hi]
  simp only [entry, fillTable, Nat.mod_eq_of_lt hi, Vector.getElem_mk, List.getElem_toArray]

/-! ### The keystream -/

/-- The keystream words are those of a run of steps. -/
theorem runSteps_getD {k i : Nat} (s : State) (hi : i < k) :
    (runSteps k s).2.getD i 0 = keystreamWord s i := runSteps_word s hi

/-- The keystream words from a state m steps on. -/
theorem keystreamWord_runSteps (s : State) (m k : Nat) :
    keystreamWord (runSteps m s).1 k = keystreamWord s (m + k) := by
  simp only [keystreamWord, runSteps_add]

/-- The keystream depends on P, Q and CNT alone. -/
theorem keystreamWord_congr {s t : State} (hp : s.p = t.p) (hq : s.q = t.q) (hc : s.cnt = t.cnt)
    (k : Nat) : keystreamWord s k = keystreamWord t k := by
  obtain ⟨_, hp', hq'⟩ := runSteps_congr k hp hq hc
  exact (stepFunction_congr hp' hq' (by simp [runSteps_cnt, hc])).1

end Sys2Proof.Machine
end

