-- ==== Sys2Proof/Laws/PerInstr.lean ====
section
/-!
SUPPORT. A statement per command: its word carries the fixed bits of its row of `spec/opcode_table.json`.
-/

namespace Sys2Proof.Laws.TableRow

/-- The bits a row fixes (`mask`), and their values (`match`): INIT's OPC and w[31:24] (R63), all of
STEP's word (R64), APPLY's OPC and w[15:8] (R65). -/
def fixedBits : Instr → Word × Word
  | .init _ _ => (0xFF0000FF#32, 0x00000001#32)
  | .step => (0xFFFFFFFF#32, 0x00000002#32)
  | .apply _ => (0x0000FFFF#32, 0x00000003#32)

/-- The word of a command carries its row's fixed bits, whatever its operands. -/
def Statement (i : Instr) : Prop := encode i &&& (fixedBits i).1 = (fixedBits i).2

/-- A word under a mask, by the low and the high bits the mask leaves. -/
theorem and_eq_of_bits {w mask v : Word} (hb : ∀ k, k < 32 → (w.getLsbD k && mask.getLsbD k) = v.getLsbD k) :
    w &&& mask = v := by
  apply BitVec.eq_of_getLsbD_eq
  intro k hk
  rw [BitVec.getLsbD_and]
  exact hb k hk

/-- INIT's row. -/
theorem init (klen ivlen : Nat) : Statement (.init klen ivlen) := by
  refine and_eq_of_bits fun k hk => ?_
  simp only [encode, opcInit, fixedBits, BitVec.getLsbD_append]
  interval_cases k <;> simp

/-- STEP's row. -/
theorem step : Statement .step := by
  unfold Statement
  decide

/-- APPLY's row. -/
theorem apply (len : Nat) : Statement (.apply len) := by
  refine and_eq_of_bits fun k hk => ?_
  simp only [encode, opcApply, fixedBits, BitVec.getLsbD_append]
  interval_cases k <;> simp

end Sys2Proof.Laws.TableRow
end

