-- ==== Sys2Proof/Tests/Slice0.lean ====
section
/-!
SUPPORT. The author's tests: refused ill-formed terms, words written out from 30 R63 to R65, values of
95_test_vectors.md, and a witness for the hypotheses of every obligation that has some.
-/

namespace Sys2Proof.Tests

open Sys2Proof.Machine

/-! ### Small states -/

/-- A table of zeros. -/
def zeroTable : Table := ⟨⟨List.takeD 1024 [] 0⟩, List.takeD_length 1024 [] 0⟩

/-- A buffer of zeros. -/
def zeroBuffer : Buffer := ⟨⟨List.takeD 64 [] 0⟩, List.takeD_length 64 [] 0⟩

/-- A table of zeros but for the entries listed. -/
def table (l : List (Index × Word)) : Table := l.foldl (fun t e => tableWrite t e.1 e.2) zeroTable

/-- A Ready engine with all storage zero. -/
def ready (cnt : BitVec 11) (cur : Fin 65) (payload : List Byte) : State :=
  { State.reset with
    p := zeroTable, q := zeroTable, ksbuf := zeroBuffer, cnt := cnt, cur := cur, ready := true,
    payload := payload }

/-- The state with one host input pending. -/
def pending (s : State) (x : HostInput) : State := { s with inbox := [x] }

/-- The status of the last response of a step's next state. -/
def lastStatus : Host.Outcome State Fault Refusal → Option Byte
  | .next s => s.outbox.getLast?.map Response.status
  | _ => none

/-- The data of the last response of a step's next state. -/
def lastData : Host.Outcome State Fault Refusal → Option ResponseData
  | .next s => s.outbox.getLast?.map Response.data
  | _ => none

/-! ### Well-formed terms (R61, R63, R65) -/

theorem test_klen_256_illformed : (Instr.init 256 0).wellFormed = false := by decide
theorem test_ivlen_256_illformed : (Instr.init 0 256).wellFormed = false := by decide
theorem test_len_65536_illformed : (Instr.apply 65536).wellFormed = false := by decide

/-! ### Decoding: the words of 30 R63 to R65, bit by bit -/

theorem test_decode_init_bits :
    decode 0b00000000001000000010000000000001#32 = .command (.init 32 32) := by decide
theorem test_decode_init_operands :
    decode 0b00000000000000110000010100000001#32 = .command (.init 5 3) := by decide
theorem test_decode_step_bits :
    decode 0b00000000000000000000000000000010#32 = .command .step := by decide
theorem test_decode_apply_bits :
    decode 0b00000000000001010000000000000011#32 = .command (.apply 5) := by decide
theorem test_decode_apply_high_bit :
    decode 0b10000000000000000000000000000011#32 = .command (.apply 32768) := by decide
/-- V14: INIT with w[31:24] not 0. -/
theorem test_decode_init_reserved : decode 0x01202001#32 = .illegal .reservedBits := by decide
/-- V14: APPLY with w[15:8] not 0. -/
theorem test_decode_apply_reserved : decode 0x00000103#32 = .illegal .reservedBits := by decide
theorem test_table_word_step : decodeTableWord 32 2 = some .step := by decide
theorem test_table_word_init : decodeTableWord 32 0x00202001 = some (.init 32 32) := by decide

/-! ### INIT (V5, V7, V14, V16) -/

/-- V5, the last two rows. -/
theorem test_f1_f2_values :
    f1 0x12345678#32 = 0xe7fce6ee#32 ∧ f1 0xdeadbeef#32 = 0xabd31b0b#32
      ∧ f2 0x12345678#32 = 0xa1f78649#32 ∧ f2 0xdeadbeef#32 = 0x689dbfec#32 := by decide
/-- V7, W[16] to W[20] of a zero key and IV, newest first. -/
theorem test_expansion_words :
    (expandFrom 5 16 (List.replicate 16 0)).take 5
      = [0x400b4298#32, 0x000aa013#32, 0x000a0012#32, 0x00000011#32, 0x00000010#32] := by decide +kernel
/-- V16: K_0 and K_1 of the key bytes 00 01 02 and so on. -/
theorem test_unpack_order :
    unpackWords [0#8, 1#8, 2#8, 3#8, 4#8, 5#8, 6#8, 7#8] = [0x03020100#32, 0x07060504#32] := by decide
/-- V14: both lengths wrong, the key's has priority. -/
theorem test_init_both_lengths_wrong :
    lastStatus (step (State.reset.withFetchWord 32 0x00101001)) = some 0x01#8 := by decide
/-- V14: KLEN = 32 and IVLEN = 16. -/
theorem test_init_iv_length_wrong :
    lastStatus (step (State.reset.withFetchWord 32 0x00102001)) = some 0x02#8 := by decide

/-! ### STEP (V8, V9, V14) -/

/-- V8: CNT = 0, the entries the first step after INIT.zero reads. -/
def traceV8 : State :=
  { ready 0 64 [] with
    p := table [(1021, 0x1e283131#32), (1, 0x8d4faeed#32), (0, 0x3c8bbccf#32), (1014, 0xffab561d#32),
      (1012, 0x3d4f92ee#32)]
    q := table [(988, 0x6b55b37d#32), (0xee, 0x547d793a#32), (256 + 0x92, 0xa6388628#32),
      (512 + 0x4f, 0x3d727295#32), (768 + 0x3d, 0xc7059e2d#32)] }

/-- V8: the word returned. -/
theorem test_step_word_v8 : lastData (exec .step traceV8) = some (.word 0x8589075b#32) := by decide +kernel

/-- V9, the step at CNT = 1024 (j = 0, A = Q, B = P). Q[1014] is new minus old minus g, P[399] is g minus
the two rotations, and the four h terms, which V9 gives as a sum only, stand in P[0x04]. -/
def traceV9 : State :=
  { ready 1024 64 [] with
    q := table [(1021, 0xc0906a2b#32), (1, 0xedff13a4#32), (0, 0x118cb196#32),
      (1014, 0xd6dd942d#32 - 0x118cb196#32 - 0xdacf7df7#32), (1012, 0xdf811004#32)]
    p := table [(399, 0xdacf7df7#32
      - ((0xc0906a2b#32).rotateRight 10 ^^^ (0xedff13a4#32).rotateRight 23)), (4, 0x54abb98f#32)] }

/-- V9: the word, Q[0] after the step, and CNT. -/
theorem test_step_on_q_v9 :
    (stepFunction traceV9).2 = 0x82762da2#32
      ∧ tableRead (stepFunction traceV9).1.q 0 = 0xd6dd942d#32
      ∧ (stepFunction traceV9).1.cnt = 1025 := by decide +kernel

/-! ### APPLY (R131, R44; V10, V14) -/

/-- Three bytes at cursor 61: the last three buffered bytes, and no refill (R131, R133). -/
theorem test_apply_buffered :
    lastData (exec (.apply 3) { ready 5 61 [0xf0#8, 0x0f#8, 0xaa#8] with
      ksbuf := ((zeroBuffer.set 61 0x01#8).set 62 0x02#8).set 63 0x03#8 })
      = some (.bytes [0xf1#8, 0x0d#8, 0xa9#8]) := by decide +kernel

/-- V14: APPLY with LEN = 0 before INIT. -/
theorem test_apply_zero_before_init :
    lastStatus (step (State.reset.withFetchWord 32 0x00000003)) = some 0x03#8 := by decide

/-- R44 on the first word of V1, 8589075b: its bytes are 5b 07 89 85. -/
theorem test_word_bytes : wordBytes 0x8589075b#32 = [0x5b#8, 0x07#8, 0x89#8, 0x85#8] := by decide

/-! ### The host interface and the assembler (R71, R73, V14) -/

/-- V14: 0x80000002 is answered ILLEGAL_COMMAND. -/
theorem test_illegal_word : lastStatus (step (State.reset.withFetchWord 32 0x80000002)) = some 0x04#8 := by
  decide

/-- R71: a STEP with a payload byte is refused. -/
theorem test_malformed_refused :
    step (pending State.reset (.command 0x00000002#32 [0#8])) = .refused .malformedTransaction := by rfl

/-- Program 3, two lines of its text. -/
theorem test_assemble_text :
    assembleText "; start\nAPPLY aabb ; data\n.word 0x00000005".toList
      = some [.command 0x00020003#32 [0xaa#8, 0xbb#8], .command 0x00000005#32 []] := by decide +kernel

/-- 70 R176: `KEYSTREAM 4`. -/
theorem test_assemble_keystream :
    assembleText "KEYSTREAM 4".toList = some [.command 0x00040003#32 [0#8, 0#8, 0#8, 0#8]] := by
  decide +kernel

/-! ### Witnesses: hypotheses of the obligations about encoding -/

/-- DecodeOfEncodeIsIdentity: every field at both ends of its range. -/
theorem witness_wellFormed :
    (Instr.init 0 255).wellFormed = true ∧ (Instr.init 255 0).wellFormed = true
      ∧ Instr.step.wellFormed = true ∧ (Instr.apply 0).wellFormed = true
      ∧ (Instr.apply 65535).wellFormed = true := by decide

/-- EncodeOfDecodeIsIdentity and PayloadLengthAnnounced: words of each outcome, at boundary values. -/
theorem witness_decoded :
    decode 0x00FFFF01#32 = .command (.init 255 255) ∧ decode 0x00000002#32 = .command .step
      ∧ decode 0xFFFF0003#32 = .command (.apply 65535)
      ∧ decode 0x00000000#32 = .illegal .reservedOpcode := by decide

/-- DecodeFollowsFieldsAndCounts and IllegalWordsAnswered: values of a word that meet each clause. -/
theorem witness_field_clauses :
    (0x00FFFF01 % 256 = 1 ∧ 0x00FFFF01 / 2 ^ 24 = 0) ∧ (0x01000001 % 256 = 1 ∧ 0x01000001 / 2 ^ 24 ≠ 0)
      ∧ (0x00000002 % 256 = 2 ∧ 0x00000002 / 2 ^ 8 = 0) ∧ (0x00000102 % 256 = 2 ∧ 0x00000102 / 2 ^ 8 ≠ 0)
      ∧ (0xFFFF0003 % 256 = 3 ∧ 0xFFFF0003 / 2 ^ 8 % 256 = 0)
      ∧ (0x00000103 % 256 = 3 ∧ 0x00000103 / 2 ^ 8 % 256 ≠ 0)
      ∧ 0x00000100 % 256 = 0 ∧ 4 ≤ 0x00000004 % 256 := by decide

/-- IllegalWordsAnswered: a state whose next input is such a word. -/
theorem witness_illegal_pending :
    (pending State.reset (.command 0x01000001#32 [])).inbox = .command 0x01000001#32 [] :: []
      ∧ (0x01000001#32).toNat % 256 = 1 ∧ (0x01000001#32).toNat / 2 ^ 24 ≠ 0 := by decide

/-! ### Witnesses: the step and the host interface -/

/-- StepRunsDecodedCommand, MalformedTransactionsRefused and StatusFollowsPriority: a pending transaction,
well-formed and malformed. -/
theorem witness_pending_command :
    (pending State.reset (.command 0x00000002#32 [])).inbox = .command 0x00000002#32 [] :: []
      ∧ decode 0x00000002#32 = .command .step
      ∧ ([] : List Byte).length = payloadLength 0x00000002#32
      ∧ [0#8].length ≠ payloadLength 0x00000002#32 := by decide

/-- IdleEngineKeepsState. -/
theorem witness_idle : State.reset.inbox = [] := rfl

/-- ResponsesHaveTheirShape with status OK: a zero-length APPLY on a Ready engine. -/
theorem witness_ok_response :
    ∃ t, step (pending (ready 0 64 []) (.command 0x00000003#32 [])) = .next t
      ∧ t.outbox = (ready 0 64 []).outbox ++ [⟨0x00#8, .bytes []⟩] := ⟨_, rfl, rfl⟩

/-- ErrorsWriteNoState and ResponsesHaveTheirShape: a STEP before INIT. -/
theorem witness_error_response :
    ∃ t, step (pending State.reset (.command 0x00000002#32 [])) = .next t
      ∧ t.outbox = State.reset.outbox ++ [⟨0x03#8, .nothing⟩]
      ∧ (⟨0x03#8, .nothing⟩ : Response).status ≠ Status.code .ok := ⟨_, rfl, rfl, by decide⟩

/-- ProperHostNeverStopsEngine: inputs of every kind, all proper. -/
theorem witness_proper_inputs :
    ∀ x ∈ [HostInput.command 0x00010003#32 [0#8], .commandAbandoned 0x00000002#32 [], .reset, .powerLoss,
      .command 0x00000000#32 []], x.wellFormed = true := by decide

/-! ### Witnesses: INIT -/

/-- InitChecksLengths: a payload of the right length for each clause, one off the required 32. -/
theorem witness_init_lengths :
    (ready 0 0 (List.replicate 63 0)).payload.length = 31 + 32 ∧ 31 ≠ 32
      ∧ (ready 0 0 (List.replicate 65 0)).payload.length = 33 + 32 ∧ 33 ≠ 32
      ∧ (ready 0 0 (List.replicate 63 0)).payload.length = 32 + 31
      ∧ (ready 0 0 (List.replicate 64 0)).payload.length = 32 + 32 := by decide

/-- UnpackIsLittleEndian, ExpansionFollowsRecurrence and TablesFilledFromExpansion: lists of the lengths
they ask for. -/
theorem witness_key_lengths :
    (List.replicate 32 (0 : Byte)).length = 32 ∧ (List.replicate 8 (0 : Word)).length = 8 := by decide

/-- InitCompletes: the payload, and a state `u` that the clause on the tables speaks of. -/
theorem witness_init_fill :
    ∃ s u : State, s.payload.length = 64 ∧ u.cnt = 0
      ∧ ∀ i, i < 1024 →
        entry u.p i = (expand (unpackWords (s.payload.take 32))
          (unpackWords (s.payload.drop 32))).getD (i + 512) 0
        ∧ entry u.q i = (expand (unpackWords (s.payload.take 32))
          (unpackWords (s.payload.drop 32))).getD (i + 1536) 0 := by
  refine ⟨ready 7 3 (List.replicate 64 1), fillTables ((List.replicate 64 1).take 32)
    ((List.replicate 64 1).drop 32) State.reset, by decide, fillTables_cnt _ _ _, fun i hi => ?_⟩
  have hw : (expand (unpackWords ((List.replicate 64 (1 : Byte)).take 32))
      (unpackWords ((List.replicate 64 (1 : Byte)).drop 32))).length = 2560 := by
    simp [expand, expandWords, unpackWords_length]
  exact ⟨by rw [fillTables_p]; exact entry_fillTable _ (by omega) hi,
    by rw [fillTables_q]; exact entry_fillTable _ (by omega) hi⟩

/-- InitForgetsOldState: two different engines with the same payload. -/
theorem witness_init_two_engines :
    (ready 0 64 (List.replicate 64 0)).payload.length = 64
      ∧ (ready 5 3 (List.replicate 64 0)).payload = (ready 0 64 (List.replicate 64 0)).payload
      ∧ (ready 5 3 (List.replicate 64 0)).inbox = (ready 0 64 (List.replicate 64 0)).inbox
      ∧ (ready 5 3 (List.replicate 64 0)).outbox = (ready 0 64 (List.replicate 64 0)).outbox := by decide

/-- InitFrame: INIT answers with both lengths 32, and with a wrong one. -/
theorem witness_init_answers :
    (∃ t, exec (.init 32 32) (ready 0 64 (List.replicate 64 0)) = .next t)
      ∧ (∃ t, exec (.init 16 32) (ready 0 64 (List.replicate 48 0)) = .next t)
      ∧ ¬(16 = 32 ∧ 32 = 32) :=
  ⟨⟨_, exec_init_eq (by decide)⟩, ⟨_, exec_init_eq (by decide)⟩, by decide⟩

/-! ### Witnesses: STEP -/

/-- RolesAndIndexFromCounter, StepFrame, RolesFlipAtHalfCycles and HalfCycleLeavesPassiveTable: counter
values on both sides of the flip and of the wrap, and the longest runs within a half-cycle. -/
theorem witness_counter_boundaries :
    (0 : BitVec 11).toNat < 1024 ∧ (1023 : BitVec 11).toNat < 1024 ∧ 1024 ≤ (1024 : BitVec 11).toNat
      ∧ 1024 ≤ (2047 : BitVec 11).toNat
      ∧ (0 : BitVec 11).toNat % 1024 + 1024 ≤ 1024 ∧ (1023 : BitVec 11).toNat % 1024 + 1 ≤ 1024
      ∧ (1024 : BitVec 11).toNat % 1024 + 1024 ≤ 1024 ∧ (2047 : BitVec 11).toNat % 1024 + 1 ≤ 1024 := by
  decide

/-- StepCompletes. -/
theorem witness_step_ready : (ready 1023 64 []).ready = true ∧ (ready 1023 64 []).payload = [] := by
  decide

/-- UseBeforeInitIsRefusedByStatus, both clauses, LEN = 0 and LEN = 3. -/
theorem witness_not_ready :
    State.reset.ready = false ∧ State.reset.payload = [] ∧ State.reset.payload.length = 0
      ∧ { State.reset with payload := [1#8, 2#8, 3#8] }.payload.length = 3 := by
  exact ⟨rfl, rfl, rfl, rfl⟩

/-- StepIgnoresBuffer and StepFrame: STEP answers on a Ready engine, on both tables, and before INIT. -/
theorem witness_step_answers :
    (∃ t, exec .step (ready 1023 7 []) = .next t) ∧ (∃ t, exec .step (ready 1024 7 []) = .next t)
      ∧ ∃ t, exec .step State.reset = .next t :=
  ⟨⟨_, exec_step_eq rfl⟩, ⟨_, exec_step_eq rfl⟩, ⟨_, exec_step_eq rfl⟩⟩

/-- StepsReturnKeystreamWords. -/
theorem witness_steps_pending :
    { ready 0 64 [] with inbox := List.replicate 3 (.command 0x00000002#32 []) }.ready = true
      ∧ { ready 0 64 [] with inbox := List.replicate 3 (.command 0x00000002#32 []) }.inbox
        = List.replicate 3 (.command 0x00000002#32 []) := ⟨rfl, rfl⟩

/-! ### Witnesses: APPLY -/

/-- RefillPacksLittleEndian: the last byte of the last word. -/
theorem witness_last_buffer_byte : 15 < 16 ∧ 3 < 4 ∧ 4 * 15 + 3 < 64 := by decide

/-- ZeroLengthApplyChangesNothing, ApplyXorsNextKeystream and SplitApplyIsOneApply, the first with the
buffer empty. -/
theorem witness_apply_ready :
    (ready 16 64 []).ready = true ∧ (ready 16 64 []).payload = []
      ∧ (ready 16 0 [1#8]).ready = true := by decide

/-- ApplyCountsRefills: the cursor and the length on both sides of each boundary. -/
theorem witness_refill_boundaries :
    (ready 0 64 []).payload.length ≤ 64 - (ready 0 64 []).cur.val
      ∧ (ready 0 0 (List.replicate 64 0)).payload.length ≤ 64 - (ready 0 0 []).cur.val
      ∧ 64 - (ready 0 64 [0#8]).cur.val < (ready 0 64 [0#8]).payload.length
      ∧ 64 - (ready 0 0 []).cur.val < (ready 0 0 (List.replicate 65 0)).payload.length := by decide

/-- ApplySequenceIsContinuous: two parts, one of them empty. -/
theorem witness_apply_sequence :
    (ready 0 64 []).ready = true ∧ (ready 0 64 []).cur = 64
      ∧ (∀ x ∈ [[1#8, 2#8, 3#8], ([] : List Byte)], x.length ≤ 65535)
      ∧ { ready 0 64 [] with inbox := [.command 0x00030003#32 [1#8, 2#8, 3#8],
          .command 0x00000003#32 []] }.inbox
        = [[1#8, 2#8, 3#8], []].map (fun x => .command (encode (.apply x.length)) x) := by decide

/-- The state the next two witnesses run APPLY on: two buffered bytes are left. -/
def buffered (payload : List Byte) : State :=
  { ready 9 62 payload with ksbuf := (zeroBuffer.set 62 0x0f#8).set 63 0xf0#8 }

/-- ApplyStateIgnoresData: two inputs of the same length. -/
theorem witness_apply_two_inputs :
    (buffered []).ready = true
      ∧ ∃ t t' : State,
        exec (.apply 2) { buffered [] with payload := [0x01#8, 0x02#8] } = .next t
        ∧ exec (.apply 2) { buffered [] with payload := [0x00#8, 0x00#8] } = .next t'
        ∧ t.outbox = (buffered []).outbox ++ [⟨0x00#8, .bytes [0x0e#8, 0xf2#8]⟩]
        ∧ t'.outbox = (buffered []).outbox ++ [⟨0x00#8, .bytes [0x0f#8, 0xf0#8]⟩] :=
  ⟨rfl, _, _, exec_apply_eq rfl, exec_apply_eq rfl, by decide +kernel, by decide +kernel⟩

/-- ApplyUndoesItself: an input, its output, and a second engine in the same state. -/
theorem witness_apply_output :
    SameEngine (buffered []) { buffered [] with outbox := [⟨0x00#8, .nothing⟩] }
      ∧ ∃ t : State,
        exec (.apply 2) { buffered [] with payload := [0x01#8, 0x02#8] } = .next t
        ∧ t.outbox = (buffered []).outbox ++ [⟨0x00#8, .bytes [0x0e#8, 0xf2#8]⟩] :=
  ⟨⟨rfl, rfl, rfl, rfl, rfl, rfl⟩, _, exec_apply_eq rfl, by decide +kernel⟩

/-- ApplyFrame: APPLY answers before INIT, within the buffered bytes, and beyond them. -/
theorem witness_apply_answers :
    (∃ t, exec (.apply 1) { State.reset with payload := [0#8] } = .next t)
      ∧ (∃ t, exec (.apply 1) (ready 0 63 [0#8]) = .next t) ∧ (ready 0 63 []).cur.val + 1 ≤ 64
      ∧ ∃ t, exec (.apply 1) (ready 0 64 [0#8]) = .next t :=
  ⟨⟨_, exec_apply_eq rfl⟩, ⟨_, exec_apply_eq rfl⟩, by decide, ⟨_, exec_apply_eq rfl⟩⟩

/-- StepAfterApplySkipsBufferedWords: the shortest and the longest APPLY it speaks of. -/
theorem witness_step_after_apply :
    (ready 0 64 [0#8]).ready = true ∧ (ready 0 64 [0#8]).cur = 64
      ∧ 1 ≤ (ready 0 64 [0#8]).payload.length ∧ (ready 0 64 [0#8]).payload.length ≤ 64
      ∧ 1 ≤ (ready 0 64 (List.replicate 64 0)).payload.length
      ∧ (ready 0 64 (List.replicate 64 0)).payload.length ≤ 64 := by decide

/-! ### Witnesses: resets and the whole machine -/

/-- ResetInputGivesResetState, PowerLossLeavesResetState and AbandonedCommandLeavesResetState. -/
theorem witness_reset_pending :
    (pending (ready 5 5 []) .reset).inbox = .reset :: []
      ∧ (pending (ready 5 5 []) .powerLoss).inbox = .powerLoss :: []
      ∧ (pending (ready 5 5 []) (.commandAbandoned 0x00010003#32 [0#8])).inbox
        = .commandAbandoned 0x00010003#32 [0#8] :: []
      ∧ [0#8].length = payloadLength 0x00010003#32
      ∧ (pending State.reset (.commandAbandoned 0x00000002#32 [0#8])).inbox
        = .commandAbandoned 0x00000002#32 [0#8] :: []
      ∧ [0#8].length ≠ payloadLength 0x00000002#32 := by decide

/-- ReadyWrittenByInitAndResetOnly: INIT makes READY 1, a reset makes it 0. -/
theorem witness_ready_changes :
    (∃ s t : State, step s = .next t ∧ s.ready = false ∧ t.ready = true)
      ∧ ∃ s t : State, step s = .next t ∧ s.ready = true ∧ t.ready = false := by
  refine ⟨⟨pending State.reset (.command 0x00202001#32 (List.replicate 64 0)), _,
    (step_command (i := .init 32 32) rfl (by decide)).trans (exec_init_eq (by decide)), rfl, ?_⟩,
    ⟨pending (ready 5 5 []) .reset, _, step_reset rfl, rfl, rfl⟩⟩
  simp [initBody, lengthError]

/-- StorageWrittenByCommandsAndResetsOnly: a STEP that changes P. -/
theorem witness_tables_change :
    ∃ s t : State, step s = .next t ∧ t.p ≠ s.p := by
  refine ⟨pending traceV8 (.command 0x00000002#32 []), _,
    (step_command (i := .step) rfl (by decide)).trans (exec_step_eq rfl), fun h => ?_⟩
  have := congrArg (fun v => tableRead v 0) h
  revert this
  decide +kernel

/-- StorageWrittenByCommandsAndResetsOnly: an APPLY that refills a buffer whose byte 0 is not what the
refill puts there. -/
theorem witness_ksbuf_changes :
    ∃ s t : State, step s = .next t ∧ t.ksbuf ≠ s.ksbuf := by
  refine ⟨pending { ready 0 64 [] with ksbuf := zeroBuffer.set 0 0xff#8 } (.command 0x00010003#32 [0#8]), _,
    (step_command (i := .apply 1) rfl (by decide)).trans (exec_apply_eq rfl), fun h => ?_⟩
  have := congrArg (fun v => bufferByte v 0) h
  revert this
  decide +kernel

/-- EveryStepKeepsInterfaceLegal: a state that has answered, and a step it takes. -/
theorem witness_interface_inv :
    ∃ s t : State, InterfaceInv s ∧ s.outbox ≠ [] ∧ step s = .next t :=
  ⟨pending { ready 0 64 [] with outbox := [⟨0x00#8, .nothing⟩] } (.command 0x00000002#32 []), _,
    ⟨rfl, by decide⟩, by decide, (step_command (i := .step) rfl (by decide)).trans (exec_step_eq rfl)⟩

/-- EveryStepKeepsBootOrder: a Ready engine that has answered an INIT, and a step it takes. -/
theorem witness_boot_inv :
    ∃ s t : State, BootInv s ∧ s.ready = true ∧ step s = .next t :=
  ⟨pending { ready 0 64 [] with outbox := [⟨0x03#8, .nothing⟩, ⟨0x00#8, .nothing⟩] }
      (.command 0x00000002#32 []), _,
    ⟨fun _ => ⟨_, .tail _ (.head _), by decide⟩, fun r h => by
      have : r = ⟨0x00#8, .nothing⟩ := by simpa [pending, Response.isOk, Status.code] using h.symm
      subst this
      decide⟩, rfl, (step_command (i := .step) rfl (by decide)).trans (exec_step_eq rfl)⟩

/-- UnreadStorageNeverShows: two engines before INIT with different tables, and two Ready engines whose
consumed buffer bytes differ, each with a step it takes. -/
theorem witness_indistinct :
    Indistinct State.reset { State.reset with p := zeroTable }
      ∧ Indistinct (ready 0 1 []) { ready 0 1 [] with ksbuf := zeroBuffer.set 0 0xff#8 }
      ∧ zeroBuffer ≠ zeroBuffer.set 0 0xff#8 ∧ ∃ t, step State.reset = .next t := by
  refine ⟨⟨rfl, rfl, rfl, rfl, rfl, rfl, fun h => by cases h⟩,
    ⟨rfl, rfl, rfl, rfl, rfl, rfl, fun _ => ⟨rfl, rfl, ?_⟩⟩, by decide +kernel, ⟨_, step_idle rfl⟩⟩
  intro k h1 h2
  have h1 : 1 ≤ k := h1
  show bufferByte zeroBuffer k = bufferByte (zeroBuffer.set 0 0xff#8) k
  simp only [bufferByte]
  rw [Vector.getElem_set_ne]
  omega

/-- AssembledLinesGiveTheirTransactions: the operands of each clause, at the ends of their ranges. -/
theorem witness_assembled :
    (∃ x, assembleCommand (.initRaw 1 1 [0#8, 0#8]) = some x)
      ∧ (∃ x, assembleCommand (.word 0x00000005#32) = some x) ∧ payloadLength 0x00000005#32 = 0
      ∧ (255 ≤ 255 ∧ (List.replicate 255 (0 : Byte)).length = 255 + 0)
      ∧ (List.replicate 3 (0 : Byte)).length ≤ 65535
      ∧ (List.replicate 32 (0 : Byte)).length = 32 :=
  ⟨⟨_, rfl⟩, ⟨_, rfl⟩, by decide, ⟨le_refl _, List.length_replicate⟩, by decide, by decide⟩

end Sys2Proof.Tests
end

section
/-!
The obligations of `00_scope.md`: subtraction of table indices (R12, R105, R107) and the parameters (R9).
-/

namespace Sys2Proof.Machine

/-- R12: going back by any number of entries is subtraction modulo N over the integers. -/
theorem indexBack_toNat_int (j : Index) (k : Nat) :
    ((indexBack j k).toNat : Int) = ((j.toNat : Int) - k) % 1024 := by
  have hj : j.toNat < 1024 := j.isLt
  simp only [indexBack, BitVec.toNat_sub, BitVec.toNat_ofNat, Nat.reducePow]
  omega

/-- R105: as 1023 is -1 modulo N, the entry 1023 back is the next one. -/
theorem indexBack_1023 (j : Index) : indexBack j 1023 = j + 1 := by
  simp only [indexBack]
  bv_omega

/-- R107: only a whole number of turns of the table leads back to the same entry. -/
theorem indexBack_eq_self_iff (j : Index) (k : Nat) : indexBack j k = j ↔ k % 1024 = 0 := by
  have hj : j.toNat < 1024 := j.isLt
  have hback := indexBack_toNat_int j k
  rw [← BitVec.toNat_inj]
  omega

/-- Settles O26: R12 and R105 are the lemmas above, and none of 3, 10, 12 and 1023 is a multiple of N. -/
theorem offsetsNeverReachCurrentEntry : Obligations.OffsetsNeverReachCurrentEntry := by
  refine ⟨indexBack_toNat_int, indexBack_1023, fun j => ?_⟩
  simp [indexBack_eq_self_iff]

/-- Settles O58, by evaluating the parameters of R8. -/
theorem parametersObeyRelations : Obligations.ParametersObeyRelations := by
  unfold Obligations.ParametersObeyRelations
  decide

end Sys2Proof.Machine
end

section
/-!
The obligations of `10_state.md` about the counter (R23 to R25, R102), READY (R28, R36) and the storage
(R21, R22, R26, R29, R35): what a command that answers can have done, and that the engine's answers rest
on nothing but what `Indistinct` compares.
-/

namespace Sys2Proof.Machine

/-! ### The counter -/

/-- Settles O25: the index is the low 10 bits of CNT and the active table its bit 10. -/
theorem rolesAndIndexFromCounter : Obligations.RolesAndIndexFromCounter :=
  fun cnt => ⟨stepIndex_toNat cnt, activeTable_of_lt, activeTable_of_ge⟩

/-- R23: CNT counts the steps of a run modulo 2048. -/
theorem runSteps_cnt_toNat (n : Nat) (s : State) :
    (runSteps n s).1.cnt.toNat = (s.cnt.toNat + n) % 2048 := by
  rw [runSteps_cnt, BitVec.toNat_add, BitVec.toNat_ofNat]
  exact Nat.add_mod_mod _ _ _

/-- Settles O22: 4096 steps are two whole periods of CNT. -/
theorem stepsAdvanceCounter : Obligations.StepsAdvanceCounter := by
  refine ⟨runSteps_cnt_toNat, fun s => BitVec.eq_of_toNat_eq ?_⟩
  have hlt : s.cnt.toNat < 2048 := s.cnt.isLt
  rw [runSteps_cnt_toNat]
  omega

/-! ### What a command that answers has done -/

/-- The length check of INIT raises errors only (R81). -/
theorem lengthError_ne_ok {klen ivlen : Nat} {e : Status} (he : lengthError klen ivlen = some e) :
    e ≠ .ok := by
  rintro rfl
  unfold lengthError at he
  split at he
  · cases he
  · split at he <;> cases he

/-- INIT with both lengths 32 initializes the engine; any other INIT is answered with an error (R80 to
R82). -/
theorem initBody_cases (klen ivlen : Nat) (bytes : List Byte) (s : State) :
    (klen = 32 ∧ ivlen = 32 ∧ initBody klen ivlen bytes s
        = (initEngine (bytes.take klen) (bytes.drop klen) s).send ⟨0x00#8, .nothing⟩)
      ∨ ∃ e : Status, e ≠ .ok ∧ initBody klen ivlen bytes s = s.send ⟨e.code, .nothing⟩ := by
  rcases he : lengthError klen ivlen with _ | e
  · obtain ⟨hk, hv⟩ := (lengthError_eq_none_iff klen ivlen).mp he
    exact .inl ⟨hk, hv, by rw [initBody, he]⟩
  · exact .inr ⟨e, lengthError_ne_ok he, by rw [initBody, he]⟩

/-- Everything a command that answers can have done, its payload taken: ended in an error, or run a proper
INIT, a STEP of a Ready engine, or an APPLY of a Ready engine (R80, R110, R130, R152). -/
theorem exec_cases {i : Instr} {s t : State} (hn : exec i s = .next t) :
    (∃ e : Status, e ≠ .ok ∧ t = (s.setPayload []).send ⟨e.code, .nothing⟩)
    ∨ (i = .init 32 32
        ∧ t = (initEngine (s.payload.take 32) (s.payload.drop 32) (s.setPayload [])).send
          ⟨0x00#8, .nothing⟩)
    ∨ (s.ready = true ∧ i = .step
        ∧ t = (stepFunction (s.setPayload [])).1.send
          ⟨0x00#8, .word (stepFunction (s.setPayload [])).2⟩)
    ∨ (s.ready = true ∧ i = .apply s.payload.length
        ∧ t = (applyBytes s.payload (s.setPayload [])).1.send
          ⟨0x00#8, .bytes (applyBytes s.payload (s.setPayload [])).2⟩) := by
  cases i with
  | init klen ivlen =>
    rw [exec_init_def] at hn
    obtain ⟨_, rfl⟩ := withPayload_next hn
    rcases initBody_cases klen ivlen s.payload (s.setPayload []) with ⟨rfl, rfl, hb⟩ | ⟨e, he, hb⟩
    · exact .inr (.inl ⟨rfl, hb⟩)
    · exact .inl ⟨e, he, hb⟩
  | step =>
    rw [exec_step_def] at hn
    obtain ⟨_, rfl⟩ := withPayload_next hn
    cases hr : s.ready with
    | false => exact .inl ⟨.useBeforeInit, by decide, by simp [stepBody, hr, Status.code]⟩
    | true => exact .inr (.inr (.inl ⟨rfl, rfl, by simp [stepBody, hr]⟩))
  | apply len =>
    rw [exec_apply_def] at hn
    obtain ⟨rfl, rfl⟩ := withPayload_next hn
    cases hr : s.ready with
    | false => exact .inl ⟨.useBeforeInit, by decide, by simp [applyBody, hr, Status.code]⟩
    | true => exact .inr (.inr (.inr ⟨rfl, rfl, by simp [applyBody, hr]⟩))

/-! ### READY -/

/-- R28: the one command that writes READY is a proper INIT, which sets it. -/
theorem exec_ready {i : Instr} {s t : State} (hn : exec i s = .next t) :
    t.ready = s.ready ∨ i = .init 32 32 ∧ t.ready = true := by
  rcases exec_cases hn with ⟨e, _, rfl⟩ | ⟨hi, rfl⟩ | ⟨_, _, rfl⟩ | ⟨_, _, rfl⟩
  · simp
  · exact .inr ⟨hi, by simp⟩
  · simp
  · simp

/-- R28, R36: what a step can do to READY: keep it, set it by a proper INIT, or clear it by a reset. -/
theorem step_ready {s t : State} (hs : step s = .next t) :
    t.ready = s.ready
    ∨ (t.ready = true ∧ ∃ w bytes rest,
        s.inbox = .command w bytes :: rest ∧ decode w = .command (.init 32 32))
    ∨ (t.ready = false ∧ ∃ x rest, s.inbox = x :: rest ∧ x.isReset = true) := by
  rcases step_cases hs with ⟨_, rfl⟩ | ⟨w, bytes, rest, i, hin, hd, _, hex⟩
    | ⟨w, rest, why, _, _, rfl⟩ | ⟨x, rest, y, hin, hx, rfl⟩
  · exact .inl rfl
  · rcases exec_ready hex with hkept | ⟨rfl, hset⟩
    · exact .inl hkept
    · exact .inr (.inl ⟨hset, w, bytes, rest, hin, hd⟩)
  · exact .inl rfl
  · exact .inr (.inr ⟨rfl, x, rest, hin, hx⟩)

/-- Settles O50, by the three cases of `step_ready`: each rules out the changes it is not about. -/
theorem readyWrittenByInitAndResetOnly : Obligations.ReadyWrittenByInitAndResetOnly := by
  intro s t hs
  rcases step_ready hs with hkept | ⟨hset, hinit⟩ | ⟨hclear, hreset⟩
  · refine ⟨fun hf ht => ?_, fun ht hf => ?_⟩ <;> simp_all
  · exact ⟨fun _ _ => hinit, fun _ hf => by simp [hset] at hf⟩
  · exact ⟨fun _ ht => by simp [hclear] at ht, fun _ _ => hreset⟩

/-! ### The storage -/

theorem setCur_setCur (s : State) (c c' : Fin 65) : (s.setCur c).setCur c' = s.setCur c' := (rfl)

/-- R131, R133: while the buffered bytes last, consuming bytes moves the cursor and does nothing else. -/
theorem applyBytes_of_buffered (xs : List Byte) (s : State) {c : Fin 65}
    (hc : c.val = s.cur.val + xs.length) : (applyBytes xs s).1 = s.setCur c := by
  induction xs generalizing s with
  | nil =>
    obtain rfl : c = s.cur := Fin.ext hc
    rfl
  | cons x xs ih =>
    rw [List.length_cons] at hc
    have hlt : s.cur.val < 64 := by omega
    have hne : s.cur ≠ 64 := fun he => by simp [he] at hlt
    have htake : (takeByte s).1 = s.setCur (advanceCursor s.cur) := by rw [takeByte_eq, if_neg hne]
    have hcur : (takeByte s).1.cur.val = s.cur.val + 1 := by
      rw [htake, setCur_cur, advanceCursor_val hlt]
    rw [applyBytes_cons, ih (takeByte s).1 (by omega), htake, setCur_setCur]

/-- R133: while the buffered bytes last, consuming bytes writes no storage. -/
theorem applyBytes_storage_of_buffered {xs : List Byte} {s : State}
    (hle : s.cur.val + xs.length ≤ 64) :
    (applyBytes xs s).1.p = s.p ∧ (applyBytes xs s).1.q = s.q
      ∧ (applyBytes xs s).1.ksbuf = s.ksbuf := by
  simp [applyBytes_of_buffered xs s (c := ⟨_, Nat.lt_succ_of_le hle⟩) rfl]

/-- Which commands of which engines can write the tables (R21, R22). -/
theorem exec_tables {i : Instr} {s t : State} (hn : exec i s = .next t) :
    (t.p = s.p ∧ t.q = s.q) ∨ i = .init 32 32 ∨ s.ready = true ∧ i = .step
      ∨ s.ready = true ∧ ∃ len, i = .apply len ∧ 64 < s.cur.val + len := by
  rcases exec_cases hn with ⟨e, _, rfl⟩ | ⟨hi, rfl⟩ | ⟨hr, hi, rfl⟩ | ⟨hr, hi, rfl⟩
  · simp
  · exact .inr (.inl hi)
  · exact .inr (.inr (.inl ⟨hr, hi⟩))
  · rcases Nat.lt_or_ge 64 (s.cur.val + s.payload.length) with hlt | hle
    · exact .inr (.inr (.inr ⟨hr, _, hi, hlt⟩))
    · obtain ⟨hp, hq, _⟩ := applyBytes_storage_of_buffered (s := s.setPayload []) hle
      exact .inl ⟨hp, hq⟩

/-- Which commands of which engines can write KSBUF (R26, R121; log 21). -/
theorem exec_ksbuf {i : Instr} {s t : State} (hn : exec i s = .next t) :
    t.ksbuf = s.ksbuf ∨ i = .init 32 32
      ∨ s.ready = true ∧ ∃ len, i = .apply len ∧ 64 < s.cur.val + len := by
  rcases exec_cases hn with ⟨e, _, rfl⟩ | ⟨hi, rfl⟩ | ⟨_, _, rfl⟩ | ⟨hr, hi, rfl⟩
  · simp
  · exact .inr (.inl hi)
  · simp
  · rcases Nat.lt_or_ge 64 (s.cur.val + s.payload.length) with hlt | hle
    · exact .inr (.inr ⟨hr, _, hi, hlt⟩)
    · obtain ⟨_, _, hbuf⟩ := applyBytes_storage_of_buffered (s := s.setPayload []) hle
      exact .inl hbuf

/-- Settles O51, by the cases of a step: idling and the answer to an illegal word keep the storage, and a
command is covered by `exec_tables` and `exec_ksbuf`. -/
theorem storageWrittenByCommandsAndResetsOnly :
    Obligations.StorageWrittenByCommandsAndResetsOnly := by
  intro s t hs
  rcases step_cases hs with ⟨_, rfl⟩ | ⟨w, bytes, rest, i, hin, hd, _, hex⟩
    | ⟨w, rest, why, _, _, rfl⟩ | ⟨x, rest, y, hin, hx, rfl⟩
  · simp
  · refine ⟨fun hne => .inl ⟨w, bytes, rest, i, hin, hd, ?_⟩,
      fun hne => .inl ⟨w, bytes, rest, i, hin, hd, ?_⟩⟩
    · exact (exec_tables hex).resolve_left fun hkept => hne.elim (· hkept.1) (· hkept.2)
    · exact (exec_ksbuf hex).resolve_left hne
  · simp
  · exact ⟨fun _ => .inr ⟨x, rest, hin, hx⟩, fun _ => .inr ⟨x, rest, hin, hx⟩⟩

/-! ### Engines the host cannot tell apart -/

section indistinct
variable {s s' : State}

theorem Indistinct.cur_eq (hsame : Indistinct s s') : s.cur = s'.cur := hsame.2.1
theorem Indistinct.ready_eq (hsame : Indistinct s s') : s.ready = s'.ready := hsame.2.2.1
theorem Indistinct.inbox_eq (hsame : Indistinct s s') : s.inbox = s'.inbox := hsame.2.2.2.1
theorem Indistinct.payload_eq (hsame : Indistinct s s') : s.payload = s'.payload := hsame.2.2.2.2.1
theorem Indistinct.outbox_eq (hsame : Indistinct s s') : s.outbox = s'.outbox := hsame.2.2.2.2.2.1

theorem indistinct_setInbox (hsame : Indistinct s s') (l : List HostInput) :
    Indistinct (s.setInbox l) (s'.setInbox l) := by
  obtain ⟨hcnt, hcur, hready, _, hpayload, houtbox, hstored⟩ := hsame
  exact ⟨hcnt, hcur, hready, rfl, hpayload, houtbox, hstored⟩

theorem indistinct_setPayload (hsame : Indistinct s s') (l : List Byte) :
    Indistinct (s.setPayload l) (s'.setPayload l) := by
  obtain ⟨hcnt, hcur, hready, hinbox, _, houtbox, hstored⟩ := hsame
  exact ⟨hcnt, hcur, hready, hinbox, rfl, houtbox, hstored⟩

theorem indistinct_send (hsame : Indistinct s s') (r : Response) :
    Indistinct (s.send r) (s'.send r) := by
  obtain ⟨hcnt, hcur, hready, hinbox, hpayload, houtbox, hstored⟩ := hsame
  exact ⟨hcnt, hcur, hready, hinbox, hpayload, by simp [houtbox], hstored⟩

/-- After a reset it does not show what the storage holds: READY = 0 (R35, R170). -/
theorem indistinct_resetTo (hinbox : s.inbox = s'.inbox) (houtbox : s.outbox = s'.outbox)
    (x x' : Storage) : Indistinct (resetTo x s) (resetTo x' s') :=
  ⟨rfl, rfl, rfl, hinbox, rfl, houtbox, fun hr => by simp at hr⟩

/-- After INIT nothing of the engine before it shows: the tables come from key and IV alone, and CUR = 64
leaves no byte of KSBUF to be read (R91, R35). -/
theorem indistinct_initEngine (hinbox : s.inbox = s'.inbox) (hpayload : s.payload = s'.payload)
    (houtbox : s.outbox = s'.outbox) (key iv : List Byte) :
    Indistinct (initEngine key iv s) (initEngine key iv s') := by
  obtain ⟨_, hp, hq⟩ := runSteps_congr 4096 (s := fillTables key iv s) (t := fillTables key iv s')
    (by simp) (by simp) (by simp)
  refine ⟨by simp, by simp, by simp, by simp [hinbox], by simp [hpayload], by simp [houtbox],
    fun _ => ⟨by simp [hp], by simp [hq], ?_⟩⟩
  intro k hk hlt
  rw [initEngine_cur] at hk
  exact absurd hlt (Nat.not_lt.mpr hk)

/-- A step of a Ready engine gives the same word and keeps the buffer (R106). -/
theorem indistinct_stepFunction (hsame : Indistinct s s') (hr : s.ready = true) :
    (stepFunction s).2 = (stepFunction s').2
      ∧ Indistinct (stepFunction s).1 (stepFunction s').1 := by
  obtain ⟨hcnt, hcur, hready, hinbox, hpayload, houtbox, hstored⟩ := hsame
  obtain ⟨hp, hq, hbuf⟩ := hstored hr
  obtain ⟨hword, hp', hq'⟩ := stepFunction_congr hp hq hcnt
  exact ⟨hword, by simp [hcnt], by simpa, by simpa, by simpa, by simpa, by simpa,
    fun _ => ⟨hp', hq', by simpa⟩⟩

/-- A refill of a Ready engine writes the whole buffer from P, Q and CNT (R120). -/
theorem indistinct_refill (hsame : Indistinct s s') (hr : s.ready = true) :
    Indistinct (refill s) (refill s') := by
  obtain ⟨hcnt, _, hready, hinbox, hpayload, houtbox, hstored⟩ := hsame
  obtain ⟨hp, hq, _⟩ := hstored hr
  obtain ⟨hwords, hp', hq'⟩ := runSteps_congr 16 hp hq hcnt
  exact ⟨by simp [hcnt], by simp, by simpa, by simpa, by simpa, by simpa,
    fun _ => ⟨by simpa, by simpa, by simp [hwords]⟩⟩

/-- Moving the cursor on only takes bytes out of the comparison. -/
theorem indistinct_setCur (hsame : Indistinct s s') {c : Fin 65} (hle : s.cur ≤ c) :
    Indistinct (s.setCur c) (s'.setCur c) := by
  obtain ⟨hcnt, _, hready, hinbox, hpayload, houtbox, hstored⟩ := hsame
  refine ⟨hcnt, rfl, hready, hinbox, hpayload, houtbox, fun hr => ?_⟩
  obtain ⟨hp, hq, hbuf⟩ := hstored hr
  exact ⟨hp, hq, fun k hk hlt => hbuf k (le_trans hle hk) hlt⟩

/-- The byte at a cursor below 64 is one of those compared. -/
theorem bufferRead_eq_of_indistinct (hsame : Indistinct s s') (hr : s.ready = true) (hlt : s.cur.val < 64) :
    bufferRead s.ksbuf (bufferIndex s.cur) = bufferRead s'.ksbuf (bufferIndex s'.cur) := by
  obtain ⟨_, hcur, _, _, _, _, hstored⟩ := hsame
  obtain ⟨_, _, hbuf⟩ := hstored hr
  rw [← hcur, bufferRead_index, bufferRead_index]
  exact hbuf s.cur.val (le_refl _) hlt

/-- Consuming a byte of a Ready engine gives the same byte (R131). -/
theorem indistinct_takeByte (hsame : Indistinct s s') (hr : s.ready = true) :
    (takeByte s).2 = (takeByte s').2 ∧ Indistinct (takeByte s).1 (takeByte s').1 := by
  rw [takeByte_eq, takeByte_eq, ← hsame.cur_eq]
  split
  · have hfill := indistinct_refill hsame hr
    have hbyte := bufferRead_eq_of_indistinct hfill (by simpa) (by simp)
    exact ⟨by simpa [bufferIndex] using hbyte, indistinct_setCur hfill (by simp)⟩
  · next hne =>
    have hlt : s.cur.val < 64 := by omega
    refine ⟨by rw [bufferRead_eq_of_indistinct hsame hr hlt, hsame.cur_eq], indistinct_setCur hsame ?_⟩
    rw [Fin.le_def, advanceCursor_val hlt]
    exact Nat.le_succ _

/-- Consuming bytes of a Ready engine gives the same output (R130). -/
theorem indistinct_applyBytes (xs : List Byte) (hsame : Indistinct s s') (hr : s.ready = true) :
    (applyBytes xs s).2 = (applyBytes xs s').2
      ∧ Indistinct (applyBytes xs s).1 (applyBytes xs s').1 := by
  induction xs generalizing s s' with
  | nil => exact ⟨rfl, hsame⟩
  | cons x xs ih =>
    obtain ⟨hbyte, hnext⟩ := indistinct_takeByte hsame hr
    obtain ⟨hout, hlast⟩ := ih hnext ((takeByte_rest s).1.trans hr)
    simp only [applyBytes_cons, hbyte, hout]
    exact ⟨trivial, hlast⟩

/-! ### Steps of such engines -/

/-- Two answers the host cannot tell apart: next states that stay so, or one and the same refusal. -/
inductive AnswersAlike : Host.Outcome State Fault Refusal → Host.Outcome State Fault Refusal → Prop where
  | next {t t' : State} (hsame : Indistinct t t') : AnswersAlike (.next t) (.next t')
  | refused (r : Refusal) : AnswersAlike (.refused r) (.refused r)

/-- Taking a payload adds nothing by which engines could be told apart (R71, R89). -/
theorem withPayload_answersAlike (n : Nat) {body : List Byte → State → State}
    (hbody : ∀ (bytes : List Byte) {u u' : State}, Indistinct u u' →
      Indistinct (body bytes u) (body bytes u'))
    (hsame : Indistinct s s') : AnswersAlike (withPayload n s body) (withPayload n s' body) := by
  unfold withPayload
  rw [← hsame.payload_eq]
  split
  · exact .next (hbody _ (indistinct_setPayload hsame []))
  · exact .refused _

theorem indistinct_initBody (klen ivlen : Nat) (bytes : List Byte) (hsame : Indistinct s s') :
    Indistinct (initBody klen ivlen bytes s) (initBody klen ivlen bytes s') := by
  unfold initBody
  split
  · exact indistinct_send hsame _
  · exact indistinct_send
      (indistinct_initEngine hsame.inbox_eq hsame.payload_eq hsame.outbox_eq _ _) _

theorem indistinct_stepBody (bytes : List Byte) (hsame : Indistinct s s') :
    Indistinct (stepBody bytes s) (stepBody bytes s') := by
  unfold stepBody
  rw [← hsame.ready_eq]
  split
  · next hr =>
    obtain ⟨hword, hnext⟩ := indistinct_stepFunction hsame hr
    rw [hword]
    exact indistinct_send hnext _
  · exact indistinct_send hsame _

theorem indistinct_applyBody (bytes : List Byte) (hsame : Indistinct s s') :
    Indistinct (applyBody bytes s) (applyBody bytes s') := by
  unfold applyBody
  rw [← hsame.ready_eq]
  split
  · next hr =>
    obtain ⟨hout, hnext⟩ := indistinct_applyBytes bytes hsame hr
    rw [hout]
    exact indistinct_send hnext _
  · exact indistinct_send hsame _

theorem exec_answersAlike (i : Instr) (hsame : Indistinct s s') : AnswersAlike (exec i s) (exec i s') := by
  cases i with
  | init klen ivlen =>
    rw [exec_init_def, exec_init_def]
    exact withPayload_answersAlike _ (fun bytes _ _ => indistinct_initBody klen ivlen bytes) hsame
  | step =>
    rw [exec_step_def, exec_step_def]
    exact withPayload_answersAlike _ (fun bytes _ _ => indistinct_stepBody bytes) hsame
  | apply len =>
    rw [exec_apply_def, exec_apply_def]
    exact withPayload_answersAlike _ (fun bytes _ _ => indistinct_applyBody bytes) hsame

theorem answerIllegal_answersAlike (hsame : Indistinct s s') :
    AnswersAlike (answerIllegal s) (answerIllegal s') :=
  withPayload_answersAlike 0 (fun _ _ _ hu => indistinct_send hu _) hsame

theorem abandonCommand_answersAlike (w : Word) (bytes : List Byte) (hsame : Indistinct s s') :
    AnswersAlike (abandonCommand w bytes s) (abandonCommand w bytes s') := by
  unfold abandonCommand
  split
  · exact .next (indistinct_resetTo hsame.inbox_eq hsame.outbox_eq _ _)
  · exact .refused _

/-- R29, R35, R91: a step answers alike, by the host's next input. -/
theorem step_answersAlike (hsame : Indistinct s s') : AnswersAlike (step s) (step s') := by
  rcases hin : s.inbox with _ | ⟨x, rest⟩
  · rw [step_idle hin, step_idle (hsame.inbox_eq ▸ hin)]
    exact .next hsame
  · have hin' : s'.inbox = x :: rest := hsame.inbox_eq ▸ hin
    have hrest := indistinct_setInbox hsame rest
    cases x with
    | command w bytes =>
      have hreceived := indistinct_setPayload hrest bytes
      cases hd : decode w with
      | command i =>
        rw [step_command hin hd, step_command hin' hd]
        exact exec_answersAlike i hreceived
      | illegal why =>
        rw [step_illegal hin hd, step_illegal hin' hd]
        exact answerIllegal_answersAlike hreceived
    | commandAbandoned w bytes =>
      rw [step_abandoned hin, step_abandoned hin']
      exact abandonCommand_answersAlike w bytes hrest
    | reset =>
      rw [step_reset hin, step_reset hin']
      exact .next (indistinct_resetTo hrest.inbox_eq hrest.outbox_eq _ _)
    | powerLoss =>
      rw [step_powerLoss hin, step_powerLoss hin']
      exact .next (indistinct_resetTo hrest.inbox_eq hrest.outbox_eq _ _)

end indistinct

/-- Settles O55, by `step_answersAlike`: the two answers are next states that stay so, or one refusal. -/
theorem unreadStorageNeverShows : Obligations.UnreadStorageNeverShows := by
  intro s s' hsame
  have halike := step_answersAlike hsame
  generalize step s = o, step s' = o' at halike ⊢
  cases halike with
  | next hnext =>
    refine ⟨?_, nofun⟩
    rintro t ⟨⟩
    exact ⟨_, rfl, hnext⟩
  | refused r => exact ⟨nofun, fun _ hr => hr⟩

end Sys2Proof.Machine
end

section
/-!
The obligation of `20_memory.md`: the order of the bytes a refill packs into KSBUF (R44).
-/

namespace Sys2Proof.Machine

/-- R13: byte n of a word is its digit n to the base 256. -/
theorem byteOf_toNat (v : Word) (n : Nat) : (byteOf v n).toNat = v.toNat / 2 ^ (8 * n) % 256 := by
  rw [byteOf, BitVec.extractLsb'_toNat, Nat.shiftRight_eq_div_pow]

/-- R44: a refill leaves the next 64 keystream bytes in the buffer, in order. -/
theorem bufferByte_refill (s : State) {i : Nat} (hi : i < 64) :
    bufferByte (refill s).ksbuf i = keystreamByte s i := by
  rw [refill_ksbuf, bufferByte_packBuffer _ (runSteps_length 16 s) hi,
    runSteps_getD s (by omega), keystreamByte]

/-- Settles O35: buffered byte 4k + n is byte n of the refill's word k, read as a number. -/
theorem refillPacksLittleEndian : Obligations.RefillPacksLittleEndian := by
  intro s k n hk hn
  have hword : (4 * k + n) / 4 = k := by omega
  have hbyte : (4 * k + n) % 4 = n := by omega
  rw [bufferByte_refill s (by omega), keystreamByte, hword, hbyte, byteOf_toNat]

end Sys2Proof.Machine
end

section
/-!
The obligations of `30_encoding.md` about command words: the decoder by a word's fields (R70), that decoding
and encoding undo each other (R63 to R65), how many words have each outcome, and the payload length a word
announces (R66).
-/

namespace Sys2Proof

/-! ### The decoder by the fields of a word -/

/-- The fields of a word that decodes as INIT (R63). -/
def InitFields (w : Word) : Prop := w.toNat % 256 = 1 ∧ w.toNat / 2 ^ 24 = 0

/-- The fields of a word that decodes as STEP (R64). -/
def StepFields (w : Word) : Prop := w.toNat % 256 = 2 ∧ w.toNat / 2 ^ 8 = 0

/-- The fields of a word that decodes as APPLY (R65). -/
def ApplyFields (w : Word) : Prop := w.toNat % 256 = 3 ∧ w.toNat / 2 ^ 8 % 256 = 0

theorem decode_of_initFields {w : Word} (hf : InitFields w) :
    decode w = .command (.init (w.toNat / 2 ^ 8 % 256) (w.toNat / 2 ^ 16 % 256)) := by
  rw [decode_eq, if_pos hf.1, if_pos hf.2]

theorem decode_of_stepFields {w : Word} (hf : StepFields w) : decode w = .command .step := by
  rw [decode_eq, if_neg (by rw [hf.1]; decide), if_pos hf.1, if_pos hf.2]

theorem decode_of_applyFields {w : Word} (hf : ApplyFields w) :
    decode w = .command (.apply (w.toNat / 2 ^ 16)) := by
  rw [decode_eq, if_neg (by rw [hf.1]; decide), if_neg (by rw [hf.1]; decide), if_pos hf.1, if_pos hf.2]

/-- R68, R69: the words with the fields of no command are the illegal ones. -/
theorem decode_of_no_fields {w : Word} (hi : ¬InitFields w) (hs : ¬StepFields w) (ha : ¬ApplyFields w) :
    ∃ why, decode w = .illegal why := by
  rw [decode_eq]
  split
  · next hop => exact ⟨_, if_neg fun hz => hi ⟨hop, hz⟩⟩
  · split
    · next hop => exact ⟨_, if_neg fun hz => hs ⟨hop, hz⟩⟩
    · split
      · next hop => exact ⟨_, if_neg fun hz => ha ⟨hop, hz⟩⟩
      · exact ⟨_, rfl⟩

/-- A word that decodes as a command has the fields of that command, and its operands are cut from it. -/
theorem fields_of_decode {w : Word} {i : Instr} (hd : decode w = .command i) :
    (InitFields w ∧ i = .init (w.toNat / 2 ^ 8 % 256) (w.toNat / 2 ^ 16 % 256))
      ∨ (StepFields w ∧ i = .step) ∨ (ApplyFields w ∧ i = .apply (w.toNat / 2 ^ 16)) := by
  by_cases hi : InitFields w
  · exact .inl ⟨hi, Decoded.command.inj (hd.symm.trans (decode_of_initFields hi))⟩
  · by_cases hs : StepFields w
    · exact .inr (.inl ⟨hs, Decoded.command.inj (hd.symm.trans (decode_of_stepFields hs))⟩)
    · by_cases ha : ApplyFields w
      · exact .inr (.inr ⟨ha, Decoded.command.inj (hd.symm.trans (decode_of_applyFields ha))⟩)
      · obtain ⟨why, hwhy⟩ := decode_of_no_fields hi hs ha
        rw [hwhy] at hd
        cases hd

/-! ### Decoding and encoding undo each other -/

@[simp] theorem wellFormed_init_iff (klen ivlen : Nat) :
    (Instr.init klen ivlen).wellFormed = true ↔ klen ≤ 255 ∧ ivlen ≤ 255 := by
  simp [Instr.wellFormed]

@[simp] theorem wellFormed_step : Instr.step.wellFormed = true := rfl

@[simp] theorem wellFormed_apply_iff (len : Nat) :
    (Instr.apply len).wellFormed = true ↔ len ≤ 65535 := by
  simp [Instr.wellFormed]

/-- Every field of a well-formed command comes back from its word (R63 to R65, R70). -/
theorem decode_encode {i : Instr} (hwf : i.wellFormed = true) : decode (encode i) = .command i := by
  cases i with
  | init klen ivlen =>
    obtain ⟨hk, hv⟩ := (wellFormed_init_iff klen ivlen).mp hwf
    have hw := encode_init_toNat klen ivlen
    have hklen : (encode (.init klen ivlen)).toNat / 2 ^ 8 % 256 = klen := by omega
    have hivlen : (encode (.init klen ivlen)).toNat / 2 ^ 16 % 256 = ivlen := by omega
    rw [decode_of_initFields ⟨by omega, by omega⟩, hklen, hivlen]
  | step => decide
  | apply len =>
    have hl := (wellFormed_apply_iff len).mp hwf
    have hw := encode_apply_toNat len
    have hlen : (encode (.apply len)).toNat / 2 ^ 16 = len := by omega
    rw [decode_of_applyFields ⟨by omega, by omega⟩, hlen]

/-- The fields of a word that decodes, put together again, are the word (R63 to R65, R70). -/
theorem encode_of_decode {w : Word} {i : Instr} (hd : decode w = .command i) :
    i.wellFormed = true ∧ encode i = w := by
  have hlt := w.isLt
  rcases fields_of_decode hd with ⟨⟨hop, hzero⟩, rfl⟩ | ⟨⟨hop, hzero⟩, rfl⟩ | ⟨⟨hop, hzero⟩, rfl⟩
  · refine ⟨(wellFormed_init_iff _ _).mpr ⟨by omega, by omega⟩, BitVec.eq_of_toNat_eq ?_⟩
    rw [encode_init_toNat]
    omega
  · refine ⟨wellFormed_step, BitVec.eq_of_toNat_eq ?_⟩
    rw [encode_step, BitVec.toNat_ofNat]
    omega
  · refine ⟨(wellFormed_apply_iff _).mpr (by omega), BitVec.eq_of_toNat_eq ?_⟩
    rw [encode_apply_toNat]
    omega

/-- Settles O1, by `decode_encode`. -/
theorem decodeOfEncodeIsIdentity : Obligations.DecodeOfEncodeIsIdentity := fun _ => decode_encode

/-- Settles O2, by `encode_of_decode`. -/
theorem encodeOfDecodeIsIdentity : Obligations.EncodeOfDecodeIsIdentity := fun _ _ => encode_of_decode

/-! ### How many words have each outcome -/

theorem card_bitVec (n : Nat) : Nat.card (BitVec n) = 2 ^ n := by
  rw [Nat.card_congr BitVec.equivFin.toEquiv, Nat.card_fin]

/-- Words that decode to well-formed commands listed once each by `f` are as many as the list is long:
`encode` takes the list to them, and no two commands to one word. -/
theorem card_decode {α : Type} {f : α → Instr} {S : Word → Prop} (hinj : Function.Injective f)
    (hwf : ∀ a, (f a).wellFormed = true) (hS : ∀ w, S w ↔ ∃ a, decode w = .command (f a)) :
    Nat.card { w : Word // S w } = Nat.card α := by
  refine (Nat.card_eq_of_bijective
    (fun a => (⟨encode (f a), (hS _).mpr ⟨a, decode_encode (hwf a)⟩⟩ : { w : Word // S w }))
    ⟨fun a b hab => hinj ?_, fun ⟨w, hw⟩ => ?_⟩).symm
  · have heq : encode (f a) = encode (f b) := congrArg Subtype.val hab
    exact Decoded.command.inj (by rw [← decode_encode (hwf a), heq, decode_encode (hwf b)])
  · obtain ⟨a, ha⟩ := (hS w).mp hw
    exact ⟨a, Subtype.ext (encode_of_decode ha).2⟩

/-- The well-formed INIT with the two counts of its fields. -/
def initOf (x : Byte × Byte) : Instr := .init x.1.toNat x.2.toNat

/-- The well-formed APPLY with the count of its field. -/
def applyOf (x : BitVec 16) : Instr := .apply x.toNat

theorem initOf_injective : Function.Injective initOf := by
  intro x y heq
  obtain ⟨hk, hv⟩ := Instr.init.inj heq
  exact Prod.ext (BitVec.eq_of_toNat_eq hk) (BitVec.eq_of_toNat_eq hv)

theorem initOf_wellFormed (x : Byte × Byte) : (initOf x).wellFormed = true :=
  (wellFormed_init_iff _ _).mpr ⟨Nat.le_of_lt_succ x.1.isLt, Nat.le_of_lt_succ x.2.isLt⟩

theorem applyOf_injective : Function.Injective applyOf :=
  fun _ _ heq => BitVec.eq_of_toNat_eq (Instr.apply.inj heq)

theorem applyOf_wellFormed (x : BitVec 16) : (applyOf x).wellFormed = true :=
  (wellFormed_apply_iff _).mpr (Nat.le_of_lt_succ x.isLt)

/-- The well-formed commands by their operands. -/
def commandOf : (Byte × Byte) ⊕ Unit ⊕ BitVec 16 → Instr :=
  Sum.elim initOf (Sum.elim (fun _ => .step) applyOf)

theorem commandOf_injective : Function.Injective commandOf := by
  refine initOf_injective.sumElim
    ((Function.injective_of_subsingleton _).sumElim applyOf_injective nofun) ?_
  rintro _ (_ | _) <;> nofun

theorem commandOf_wellFormed : ∀ x, (commandOf x).wellFormed = true
  | .inl x => initOf_wellFormed x
  | .inr (.inl _) => wellFormed_step
  | .inr (.inr x) => applyOf_wellFormed x

/-- An INIT that decodes has 8-bit counts. -/
theorem decode_init_iff (w : Word) :
    (∃ klen ivlen, decode w = .command (.init klen ivlen)) ↔ ∃ x, decode w = .command (initOf x) := by
  refine ⟨fun ⟨klen, ivlen, hd⟩ => ?_, fun ⟨x, hd⟩ => ⟨_, _, hd⟩⟩
  obtain ⟨hk, hv⟩ := (wellFormed_init_iff _ _).mp (encode_of_decode hd).1
  refine ⟨(BitVec.ofNat 8 klen, BitVec.ofNat 8 ivlen), hd.trans ?_⟩
  simp only [initOf, BitVec.toNat_ofNat]
  rw [Nat.mod_eq_of_lt (by omega), Nat.mod_eq_of_lt (by omega)]

/-- An APPLY that decodes has a 16-bit count. -/
theorem decode_apply_iff (w : Word) :
    (∃ len, decode w = .command (.apply len)) ↔ ∃ x, decode w = .command (applyOf x) := by
  refine ⟨fun ⟨len, hd⟩ => ?_, fun ⟨x, hd⟩ => ⟨_, hd⟩⟩
  have hl := (wellFormed_apply_iff _).mp (encode_of_decode hd).1
  refine ⟨BitVec.ofNat 16 len, hd.trans ?_⟩
  simp only [applyOf, BitVec.toNat_ofNat]
  rw [Nat.mod_eq_of_lt (by omega)]

theorem decode_command_iff (w : Word) :
    (∃ i, decode w = .command i) ↔ ∃ x, decode w = .command (commandOf x) := by
  refine ⟨fun ⟨i, hd⟩ => ?_, fun ⟨x, hd⟩ => ⟨_, hd⟩⟩
  cases i with
  | init klen ivlen =>
    obtain ⟨x, hx⟩ := (decode_init_iff w).mp ⟨klen, ivlen, hd⟩
    exact ⟨.inl x, hx⟩
  | step => exact ⟨.inr (.inl ()), hd⟩
  | apply len =>
    obtain ⟨x, hx⟩ := (decode_apply_iff w).mp ⟨len, hd⟩
    exact ⟨.inr (.inr x), hx⟩

theorem card_init_words :
    Nat.card { w : Word // ∃ klen ivlen, decode w = .command (.init klen ivlen) } = 2 ^ 16 := by
  rw [card_decode initOf_injective initOf_wellFormed decode_init_iff, Nat.card_prod, card_bitVec,
    ← Nat.pow_add]

theorem card_step_words : Nat.card { w : Word // decode w = .command .step } = 1 := by
  rw [card_decode (Function.injective_of_subsingleton fun _ : Unit => Instr.step)
    (fun _ => wellFormed_step) (fun _ => (exists_const Unit).symm), Nat.card_unique]

theorem card_apply_words :
    Nat.card { w : Word // ∃ len, decode w = .command (.apply len) } = 2 ^ 16 := by
  rw [card_decode applyOf_injective applyOf_wellFormed decode_apply_iff, card_bitVec]

theorem card_command_words : Nat.card { w : Word // ∃ i, decode w = .command i } = 2 ^ 17 + 1 := by
  rw [card_decode commandOf_injective commandOf_wellFormed decode_command_iff]
  simp only [Nat.card_sum, Nat.card_prod, card_bitVec, Nat.card_unique]
  norm_num

/-- Every word is illegal or decodes as a command, never both. -/
theorem decode_illegal_iff (w : Word) : (∃ why, decode w = .illegal why) ↔ ¬∃ i, decode w = .command i := by
  cases decode w <;> simp

theorem card_illegal_words :
    Nat.card { w : Word // ∃ why, decode w = .illegal why } = 2 ^ 32 - 2 ^ 17 - 1 := by
  have hcompl := Set.ncard_compl { w : Word | ∃ i, decode w = .command i }
  have hcommand : Set.ncard { w : Word | ∃ i, decode w = .command i } = 2 ^ 17 + 1 := card_command_words
  rw [hcommand, card_bitVec, Nat.sub_add_eq] at hcompl
  rw [← hcompl]
  exact Nat.card_congr (Equiv.subtypeEquivRight decode_illegal_iff)

/-- Settles O3, by the decoder on each kind of fields and the counts above. -/
theorem decodeFollowsFieldsAndCounts : Obligations.DecodeFollowsFieldsAndCounts :=
  ⟨fun _ => ⟨decode_of_initFields, decode_of_stepFields, decode_of_applyFields,
      fun ⟨hi, hs, ha⟩ => decode_of_no_fields hi hs ha⟩,
    card_init_words, card_step_words, card_apply_words, card_illegal_words⟩

/-- Settles O4, by running the decoder on each word. -/
theorem specWordsDecode : Obligations.SpecWordsDecode := by
  unfold Obligations.SpecWordsDecode
  decide

/-! ### The announced payload length -/

theorem payloadLength_of_command {w : Word} {i : Instr} (hd : decode w = .command i) :
    payloadLength w = i.payloadLength := by
  simp only [payloadLength, hd]

theorem payloadLength_of_illegal {w : Word} {why : Illegal} (hd : decode w = .illegal why) :
    payloadLength w = 0 := by
  simp only [payloadLength, hd]

theorem payloadLength_encode {i : Instr} (hwf : i.wellFormed = true) :
    payloadLength (encode i) = i.payloadLength := payloadLength_of_command (decode_encode hwf)

/-- Settles O5: a word announces the payload of its command, an illegal one none. -/
theorem payloadLengthAnnounced : Obligations.PayloadLengthAnnounced :=
  ⟨fun _ _ _ => payloadLength_of_command, fun _ => payloadLength_of_command,
    fun _ _ => payloadLength_of_command, fun _ _ => payloadLength_of_illegal⟩

end Sys2Proof
end

section
/-!
The obligations of `30_encoding.md` about transactions: what a step makes of a command, of an illegal word
(R160) and of a malformed transaction (R71), the shape of a response (R67), and the assembler (R73, R74).
-/

namespace Sys2Proof.Machine

/-! ### Transactions the engine answers without running a command -/

/-- R160: the answer to an illegal word without payload. -/
theorem answerIllegal_eq {s : State} (hp : s.payload = []) :
    answerIllegal s = .next ((s.setPayload []).send ⟨0x04#8, .nothing⟩) :=
  withPayload_of_length _ (by rw [hp]; rfl)

/-- Settles O6: such a word has the fields of no command, so it is illegal and `answerIllegal_eq` says the
rest. -/
theorem illegalWordsAnswered : Obligations.IllegalWordsAnswered := by
  intro s w rest hin hfields
  obtain ⟨why, hd⟩ : ∃ why, decode w = .illegal why :=
    decode_of_no_fields (fun ⟨hop, hz⟩ => by omega) (fun ⟨hop, hz⟩ => by omega)
      (fun ⟨hop, hz⟩ => by omega)
  rw [step_illegal hin hd, answerIllegal_eq (setPayload_payload _ _)]
  rfl

/-- R71: a command refuses exactly the payloads of another length. -/
theorem exec_refused_iff (i : Instr) (s : State) :
    exec i s = .refused .malformedTransaction ↔ s.payload.length ≠ i.payloadLength := by
  obtain ⟨body, hb⟩ := exec_body i s
  rw [hb, withPayload_refused_iff]

/-- R66, R71: an illegal word is refused exactly when it brings a payload. -/
theorem answerIllegal_refused_iff (s : State) :
    answerIllegal s = .refused .malformedTransaction ↔ s.payload.length ≠ 0 := withPayload_refused_iff

/-- Settles O9, by what the word decodes to. -/
theorem malformedTransactionsRefused : Obligations.MalformedTransactionsRefused := by
  refine ⟨fun s w bytes rest hin => ?_, exec_refused_iff⟩
  cases hd : decode w with
  | command i =>
    rw [step_command hin hd, exec_refused_iff, setPayload_payload, payloadLength_of_command hd]
  | illegal why =>
    rw [step_illegal hin hd, answerIllegal_refused_iff, setPayload_payload, payloadLength_of_illegal hd]

/-- Settles O7, by `step_command`. -/
theorem stepRunsDecodedCommand : Obligations.StepRunsDecodedCommand :=
  fun _ _ _ _ _ => step_command

/-! ### Responses -/

/-- A response of an error has no data, whatever the word. -/
theorem responseShape_of_error (w : Word) {e : Status} (he : e ≠ .ok) :
    ResponseShape w ⟨e.code, .nothing⟩ := by
  have hcode : e.code ≠ Status.code .ok := fun hz => he ((code_eq_zero_iff e).mp hz)
  rw [ResponseShape, if_neg hcode]

/-- The response of a command has the shape of its word (R67), by what the command has done. -/
theorem responseShape_of_exec {w : Word} {i : Instr} {s t : State} {r : Response}
    (hd : decode w = .command i) (hn : exec i s = .next t) (hr : t.outbox = s.outbox ++ [r]) :
    ResponseShape w r := by
  rcases exec_cases hn with ⟨e, he, rfl⟩ | ⟨rfl, rfl⟩ | ⟨_, rfl, rfl⟩ | ⟨_, rfl, rfl⟩ <;>
    obtain rfl : _ = r := by simpa using hr
  · exact responseShape_of_error w he
  · simp [ResponseShape, hd, Status.code]
  · simp [ResponseShape, hd, Status.code]
  · simp [ResponseShape, hd, Status.code]

/-- Settles O12: a command's response by `responseShape_of_exec`, an illegal word's is an error. -/
theorem responsesHaveTheirShape : Obligations.ResponsesHaveTheirShape := by
  intro s t w bytes rest r hin hs hr
  cases hd : decode w with
  | command i =>
    rw [step_command hin hd] at hs
    exact responseShape_of_exec hd hs hr
  | illegal why =>
    rw [step_illegal hin hd] at hs
    obtain ⟨_, rfl⟩ := withPayload_next hs
    obtain rfl : _ = r := by simpa using hr
    exact responseShape_of_error w (by decide)

/-! ### The assembler -/

/-- The word of a well-formed command with a payload of its length makes a proper transaction (R66, R71). -/
theorem wellFormed_command_encode {i : Instr} {data : List Byte} (hwf : i.wellFormed = true)
    (hl : data.length = i.payloadLength) : (HostInput.command (encode i) data).wellFormed = true := by
  rw [HostInput.wellFormed, payloadLength_encode hwf, hl]
  exact decide_eq_true rfl

/-- R71, R73: only a `.word` line can assemble to a malformed transaction. -/
theorem assembleCommand_wellFormed {c : AsmCommand} {x : HostInput} (hc : assembleCommand c = some x)
    (hword : ∀ w, c = .word w → payloadLength w = 0) : x.wellFormed = true := by
  cases c with
  | init key iv =>
    obtain ⟨⟨hk, hv⟩, rfl⟩ : (key.length = 32 ∧ iv.length = 32) ∧ _ = x := by
      simpa only [assembleCommand, Option.ite_none_right_eq_some, Option.some.injEq] using hc
    exact wellFormed_command_encode rfl (by rw [List.length_append, hk, hv]; rfl)
  | initRaw klen ivlen data =>
    obtain ⟨⟨hwf, hl⟩, rfl⟩ :
        ((Instr.init klen ivlen).wellFormed = true ∧ data.length = klen + ivlen) ∧ _ = x := by
      simpa only [assembleCommand, Option.ite_none_right_eq_some, Option.some.injEq] using hc
    exact wellFormed_command_encode hwf hl
  | step =>
    cases hc
    exact wellFormed_command_encode wellFormed_step rfl
  | apply input =>
    obtain ⟨hwf, rfl⟩ : (Instr.apply input.length).wellFormed = true ∧ _ = x := by
      simpa only [assembleCommand, Option.ite_none_right_eq_some, Option.some.injEq] using hc
    exact wellFormed_command_encode hwf rfl
  | word w =>
    cases hc
    rw [HostInput.wellFormed, hword w rfl]
    rfl

/-- R65: APPLY's word as a number. -/
theorem encode_apply_eq (len : Nat) :
    encode (.apply len) = BitVec.ofNat 32 (len * 2 ^ 16 + 3) := by
  apply BitVec.eq_of_toNat_eq
  rw [encode_apply_toNat, BitVec.toNat_ofNat]
  omega

/-- R63: INIT's word as a number. -/
theorem encode_init_eq {klen ivlen : Nat} (hk : klen ≤ 255) (hv : ivlen ≤ 255) :
    encode (.init klen ivlen) = BitVec.ofNat 32 (ivlen * 2 ^ 16 + klen * 2 ^ 8 + 1) := by
  apply BitVec.eq_of_toNat_eq
  rw [encode_init_toNat, BitVec.toNat_ofNat]
  omega

/-- Settles O57: no line but `.word` is malformed, and a line whose operands are admitted assembles to the
word of its command. -/
theorem assembledLinesGiveTheirTransactions : Obligations.AssembledLinesGiveTheirTransactions := by
  refine ⟨fun c x => assembleCommand_wellFormed, fun b hb => ?_, fun key iv hk hv => ?_,
    fun klen ivlen data hk hv hl => ?_, ?_, fun w => rfl⟩
  · rw [assembleCommand, if_pos ((wellFormed_apply_iff _).mpr hb), encode_apply_eq]
  · rw [assembleCommand, if_pos ⟨hk, hv⟩, encode_init_eq (by decide) (by decide)]
    rfl
  · rw [assembleCommand, if_pos ⟨(wellFormed_init_iff _ _).mpr ⟨hk, hv⟩, hl⟩, encode_init_eq hk hv]
  · rw [assembleCommand, encode_step]

/-- Settles O56: `expandLine` gives both lines of each clause the same command. -/
theorem pseudoInstructionsExpand : Obligations.PseudoInstructionsExpand :=
  ⟨fun _ => rfl, fun _ => rfl, fun _ => rfl, rfl⟩

end Sys2Proof.Machine
end

section
/-!
The obligations of `40_initializer.md`: the length check (R81, R82), unpacking (R83), the expansion (R84), the
fill (R85, R86) and what INIT leaves (R87 to R91); and that every step keeps the interface legal (R89, U14).
-/

namespace Sys2Proof.Machine

/-! ### The interface invariant -/

theorem legal_of_status (e : Status) : (⟨e.code, .nothing⟩ : Response).legal = true :=
  decide_eq_true (code_toNat_le e)

theorem legal_ok_word (v : Word) : (⟨0x00#8, .word v⟩ : Response).legal = true := rfl

theorem legal_ok_bytes {vs : List Byte} (hl : vs.length ≤ 65535) :
    (⟨0x00#8, .bytes vs⟩ : Response).legal = true := by
  simpa [Response.legal] using hl

theorem interfaceInv_send {s : State} {r : Response} (hinv : InterfaceInv s) (hr : r.legal = true) :
    InterfaceInv (s.send r) := by
  refine ⟨hinv.1, ?_⟩
  simpa [or_imp, forall_and, hr] using hinv.2

/-- The invariant is about the payload and the responses alone. -/
theorem interfaceInv_congr {s t : State} (hinv : InterfaceInv s) (hp : t.payload = s.payload)
    (ho : t.outbox = s.outbox) : InterfaceInv t := by
  rw [InterfaceInv, hp, ho]
  exact hinv

/-- Every answer of a decoded command is legal: the data of APPLY is as long as its payload, which is no longer
than the 16-bit field LEN can say (R61, R66). -/
theorem exec_interfaceInv {i : Instr} {s t : State} (hn : exec i s = .next t) (hwf : i.wellFormed = true)
    (hlegal : ∀ r ∈ s.outbox, r.legal = true) : InterfaceInv t := by
  have hinv : InterfaceInv (s.setPayload []) := ⟨rfl, hlegal⟩
  rcases exec_cases hn with ⟨e, _, rfl⟩ | ⟨_, rfl⟩ | ⟨_, _, rfl⟩ | ⟨_, rfl, rfl⟩
  · exact interfaceInv_send hinv (legal_of_status e)
  · exact interfaceInv_send (interfaceInv_congr hinv (by simp) (by simp)) (legal_of_status .ok)
  · exact interfaceInv_send (interfaceInv_congr hinv (by simp) (by simp)) (legal_ok_word _)
  · have hlen : s.payload.length ≤ 65535 := (wellFormed_apply_iff _).mp hwf
    exact interfaceInv_send (interfaceInv_congr hinv (by simp) (by simp))
      (legal_ok_bytes (by simpa using hlen))

/-- Settles O52, by the cases of a step: a command is covered by `exec_interfaceInv`, as a decoded one is
well-formed, the answer to an illegal word is an error's, and a reset leaves the responses alone. -/
theorem everyStepKeepsInterfaceLegal : Obligations.EveryStepKeepsInterfaceLegal := by
  intro s t hinv hs
  rcases step_cases hs with ⟨_, rfl⟩ | ⟨w, bytes, rest, i, _, hd, _, hex⟩
    | ⟨w, rest, why, _, _, rfl⟩ | ⟨x, rest, y, _, _, rfl⟩
  · exact hinv
  · exact exec_interfaceInv hex (encode_of_decode hd).1 hinv.2
  · exact interfaceInv_send ⟨rfl, hinv.2⟩ (legal_of_status .illegalCommand)
  · exact ⟨rfl, hinv.2⟩

/-! ### Unpacking -/

/-- R13: LE32 weighs its bytes by the powers of 256. -/
theorem le32_toNat (b0 b1 b2 b3 : Byte) :
    (le32 b0 b1 b2 b3).toNat
      = b0.toNat + 2 ^ 8 * b1.toNat + 2 ^ 16 * b2.toNat + 2 ^ 24 * b3.toNat := by
  rw [le32, append_toNat, append_toNat, append_toNat]
  omega

/-- R45: word i is made of bytes 4i to 4i + 3. -/
theorem unpackWords_getD {bytes : List Byte} {i : Nat} (hi : i < bytes.length / 4) :
    (unpackWords bytes).getD i 0
      = le32 (bytes.getD (4 * i) 0) (bytes.getD (4 * i + 1) 0) (bytes.getD (4 * i + 2) 0)
          (bytes.getD (4 * i + 3) 0) := by
  induction bytes using unpackWords.induct generalizing i with
  | case1 b0 b1 b2 b3 rest ih =>
    cases i with
    | zero => rfl
    | succ i =>
      have hrest : i < rest.length / 4 := by
        simp only [List.length_cons] at hi
        omega
      exact ih hrest
  | case2 bytes hne =>
    have hnil : unpackWords bytes = [] := unpackWords.eq_2 bytes hne
    rw [← unpackWords_length, hnil] at hi
    exact absurd hi (Nat.not_lt_zero i)

/-- Settles O16: eight words of four bytes, each read as a number by `le32_toNat`. -/
theorem unpackIsLittleEndian : Obligations.UnpackIsLittleEndian := by
  intro bytes hl
  refine ⟨by rw [unpackWords_length, hl], fun i hi => ?_⟩
  rw [unpackWords_getD (by omega), le32_toNat]

/-! ### The expansion -/

/-- An array kept newest word first grows in front: its words keep their numbers. -/
theorem getD_reverse_of_suffix {v w : List Word} (hs : w <:+ v) {n : Nat} (hn : n < w.length) :
    v.reverse.getD n 0 = w.reverse.getD n 0 := by
  obtain ⟨newer, rfl⟩ := hs
  rw [List.reverse_append, List.getD_append _ _ _ _ (by simpa using hn)]

/-- The word d places back, by its number in the array. -/
theorem wordBack_eq_getD {w : List Word} {d : Nat} (hpos : 0 < d) (hd : d ≤ w.length) :
    wordBack w d = w.reverse.getD (w.length - d) 0 := by
  rw [wordBack, List.getD_reverse _ (by omega)]
  congr 1
  omega

/-- The array so far is the oldest part of the expanded one. -/
theorem suffix_expandFrom (k i : Nat) (w : List Word) : w <:+ expandFrom k i w := by
  induction k generalizing i w with
  | zero => exact List.suffix_rfl
  | succ k ih => exact (List.suffix_cons _ w).trans (ih (i + 1) _)

/-- Every word an expansion appends is `expandWord` of the words before it. -/
theorem expandFrom_word {k i n : Nat} {w : List Word} (hw : w.length = i) (hle : i ≤ n) (hlt : n < i + k) :
    ∃ u : List Word, u.length = n ∧ expandWord u n :: u <:+ expandFrom k i w := by
  induction k generalizing i w with
  | zero => omega
  | succ k ih =>
    rw [expandFrom_succ]
    rcases Nat.eq_or_lt_of_le hle with rfl | hgt
    · exact ⟨w, hw, suffix_expandFrom k (i + 1) _⟩
    · exact ih (by rw [List.length_cons, hw]) hgt (by omega)

/-- The recurrence of R84, by the numbers of the words, from W[16] on. -/
theorem expandFrom_getD {k i n : Nat} {w : List Word} (hw : w.length = i) (h16 : 16 ≤ i) (hle : i ≤ n)
    (hlt : n < i + k) :
    (expandFrom k i w).reverse.getD n 0
      = f2 ((expandFrom k i w).reverse.getD (n - 2) 0) + (expandFrom k i w).reverse.getD (n - 7) 0
        + f1 ((expandFrom k i w).reverse.getD (n - 15) 0) + (expandFrom k i w).reverse.getD (n - 16) 0
        + BitVec.ofNat 32 n := by
  obtain ⟨u, rfl, hsuffix⟩ := expandFrom_word hw hle hlt
  have hback : ∀ d, 0 < d → d ≤ 16 →
      wordBack u d = (expandFrom k i w).reverse.getD (u.length - d) 0 := fun d hpos hd => by
    rw [wordBack_eq_getD hpos (by omega),
      getD_reverse_of_suffix ((List.suffix_cons _ u).trans hsuffix) (by omega)]
  have hword : (expandFrom k i w).reverse.getD u.length 0 = expandWord u u.length := by
    rw [getD_reverse_of_suffix hsuffix (by simp)]
    simp
  rw [hword, expandWord, hback 2 (by decide) (by decide), hback 7 (by decide) (by decide),
    hback 15 (by decide) (by decide), hback 16 (by decide) (by decide)]

theorem expand_length {key iv : List Word} (hk : key.length = 8) (hv : iv.length = 8) :
    (expand key iv).length = 2560 := by
  simp [expand, expandWords, hk, hv]

/-- The array begins with the words of key and IV. -/
theorem expand_getD_of_lt {key iv : List Word} {i : Nat} (hi : i < (key ++ iv).length) :
    (expand key iv).getD i 0 = (key ++ iv).getD i 0 := by
  rw [expand, getD_reverse_of_suffix (suffix_expandFrom _ _ _) (by rwa [List.length_reverse]),
    List.reverse_reverse]

/-- Settles O17: the first words by `expand_getD_of_lt`, the others by `expandFrom_getD`. -/
theorem expansionFollowsRecurrence : Obligations.ExpansionFollowsRecurrence := by
  intro key iv hk hv
  have hkv : (key ++ iv).length = 16 := by rw [List.length_append, hk, hv]
  refine ⟨expand_length hk hv, fun i hi => ?_, fun i hge hlt => ?_, fun i hge hlt => ?_⟩
  · rw [expand_getD_of_lt (by omega), List.getD_append _ _ _ _ (by omega)]
  · rw [expand_getD_of_lt (by omega), List.getD_append_right _ _ _ _ (by omega), hk]
  · exact expandFrom_getD (by rw [List.length_reverse, hkv]) le_rfl hge (by rw [expandWords]; omega)

/-! ### The fill -/

/-- Settles O18: W has 2560 words, so both tables lie inside it. -/
theorem tablesFilledFromExpansion : Obligations.TablesFilledFromExpansion := by
  intro key iv s hk hv
  have hlen : (expand (unpackWords key) (unpackWords iv)).length = 2560 :=
    expand_length (by rw [unpackWords_length, hk]) (by rw [unpackWords_length, hv])
  refine ⟨fun i hi => ⟨?_, ?_⟩, fillTables_cnt key iv s⟩
  · rw [fillTables_p, entry_fillTable _ (by omega) hi]
  · rw [fillTables_q, entry_fillTable _ (by omega) hi]

/-! ### INIT -/

/-- R82: an INIT that fails its length check gives the error's response and does nothing else. -/
theorem exec_init_of_lengthError {klen ivlen : Nat} {s : State} {e : Status}
    (hl : s.payload.length = klen + ivlen) (he : lengthError klen ivlen = some e) :
    exec (.init klen ivlen) s = .next ((s.setPayload []).send ⟨e.code, .nothing⟩) := by
  rw [exec_init_eq hl, initBody, he]

/-- R80: INIT with both lengths 32 initializes the engine from the 32 bytes of the key and those of the IV. -/
theorem exec_init_proper {s : State} (hl : s.payload.length = 64) :
    exec (.init 32 32) s = .next ((initEngine (s.payload.take 32) (s.payload.drop 32)
      (s.setPayload [])).send ⟨0x00#8, .nothing⟩) := by
  have hok : lengthError 32 32 = none := rfl
  rw [exec_init_eq hl, initBody, hok]

theorem lengthError_of_klen {klen ivlen : Nat} (hk : klen ≠ 32) :
    lengthError klen ivlen = some .invalidKeyLength := if_pos hk

theorem lengthError_of_ivlen {ivlen : Nat} (hv : ivlen ≠ 32) :
    lengthError 32 ivlen = some .invalidIvLength := if_pos hv

/-- Settles O15, by what the length check answers in each of its three cases. -/
theorem initChecksLengths : Obligations.InitChecksLengths := by
  intro klen ivlen s hl
  refine ⟨fun hk => ?_, ?_, ?_⟩
  · exact exec_init_of_lengthError hl (lengthError_of_klen hk)
  · rintro ⟨rfl, hv⟩
    exact exec_init_of_lengthError hl (lengthError_of_ivlen hv)
  · rintro ⟨rfl, rfl⟩
    exact ⟨_, exec_init_proper hl, by simp⟩

/-- Settles O21: an INIT that answers has failed its length check or has initialized the engine. -/
theorem initFrame : Obligations.InitFrame := by
  intro klen ivlen s t hn
  have hl : s.payload.length = klen + ivlen := exec_next_length hn
  cases he : lengthError klen ivlen with
  | some e =>
    have hwrong : ¬(klen = 32 ∧ ivlen = 32) := by
      rw [← lengthError_eq_none_iff, he]
      exact Option.some_ne_none e
    rw [exec_init_of_lengthError hl he] at hn
    cases hn
    exact ⟨rfl, rfl, fun _ => ⟨⟨rfl, rfl, rfl, rfl, rfl, rfl⟩, rfl⟩, fun hright => absurd hright hwrong⟩
  | none =>
    obtain ⟨rfl, rfl⟩ := (lengthError_eq_none_iff klen ivlen).mp he
    obtain rfl := Host.Outcome.next.inj ((exec_init_proper hl).symm.trans hn)
    exact ⟨by simp, by simp, fun hwrong => absurd ⟨rfl, rfl⟩ hwrong, fun _ => by simp⟩

/-- R87, R90: the tables INIT leaves are those of the warm-up from any state with the fill of key and IV and
CNT = 0. -/
theorem initEngine_tables (key iv : List Byte) (s : State) {u : State}
    (hp : u.p = (fillTables key iv s).p) (hq : u.q = (fillTables key iv s).q) (hc : u.cnt = 0) :
    (initEngine key iv s).p = (runSteps 4096 u).1.p ∧ (initEngine key iv s).q = (runSteps 4096 u).1.q := by
  obtain ⟨_, hrunp, hrunq⟩ := runSteps_congr 4096 hp hq (hc.trans (fillTables_cnt key iv s).symm)
  exact ⟨by rw [initEngine_p, hrunp], by rw [initEngine_q, hrunq]⟩

/-- Settles O19: a state with the entries R85 gives has the tables of the fill, by O18. -/
theorem initCompletes : Obligations.InitCompletes := by
  intro s hl
  refine ⟨_, exec_init_proper hl, by simp, by simp, by simp, by simp, by simp, by simp, by simp,
    fun u hc hentries => ?_⟩
  obtain ⟨hfill, _⟩ := tablesFilledFromExpansion (s.payload.take 32) (s.payload.drop 32)
    (s.setPayload []) (by simp [hl]) (by simp [hl])
  rw [send_p, send_q]
  refine initEngine_tables _ _ (s.setPayload []) (table_eq_of_entries fun k hk => ?_)
    (table_eq_of_entries fun k hk => ?_) hc
  · rw [(hentries k hk).1, (hfill k hk).1]
  · rw [(hentries k hk).2, (hfill k hk).2]

/-- Settles O20: the fill, and so what the warm-up makes of it, is the same in both engines, and CUR = 64 hides
what KSBUF holds (`indistinct_initEngine`). -/
theorem initForgetsOldState : Obligations.InitForgetsOldState := by
  intro s s' hl hpayload
  obtain ⟨hp, hq⟩ := initEngine_tables (s.payload.take 32) (s.payload.drop 32) (s.setPayload [])
    (u := fillTables (s.payload.take 32) (s.payload.drop 32) (s'.setPayload [])) rfl rfl rfl
  refine ⟨_, _, exec_init_proper hl, exec_init_proper (hpayload ▸ hl), ?_⟩
  rw [hpayload]
  refine ⟨by simpa using hp, by simpa using hq, by simp, by simp, by simp, fun hinbox houtbox => ?_⟩
  exact indistinct_send (indistinct_initEngine (s := s.setPayload []) (s' := s'.setPayload [])
    hinbox rfl houtbox _ _) _

end Sys2Proof.Machine
end

section
/-!
The obligations of `41_step_function.md`: the functions f1, f2, g and h (R100 to R104), what a step writes
(R105 to R107), the half-cycles (R108, R109) and the command STEP (R110 to R113).
-/

namespace Sys2Proof.Machine

/-! ### The nonlinear functions -/

/-- Settles O23: a rotation is the two shifts R11 defines it by; the examples are evaluated. -/
theorem expansionFunctionsAsDefined : Obligations.ExpansionFunctionsAsDefined := by
  refine ⟨fun x => ?_, fun x => ?_, by decide, by decide, by decide, by decide, by decide, by decide⟩
  · simp only [f1, BitVec.rotateRight_def, Nat.reduceMod, Nat.reduceSub]
  · simp only [f2, BitVec.rotateRight_def, Nat.reduceMod, Nat.reduceSub]

/-- R104: the entry `256 * quarter + byte` by number. -/
theorem tableRead_quarterIndex (b : Table) (quarter : BitVec 2) (u : Word) (n : Nat) :
    tableRead b (quarterIndex quarter (byteOf u n))
      = entry b (quarter.toNat * 256 + u.toNat / 2 ^ (8 * n) % 256) := by
  rw [tableRead_eq_entry, quarterIndex, append_toNat, byteOf_toNat]
  rfl

/-- Settles O24: each index bit string read as a number. -/
theorem feedbackAndFilterAsDefined : Obligations.FeedbackAndFilterAsDefined := by
  refine ⟨fun b x y => ?_, fun b u => ?_⟩
  · simp only [g, BitVec.rotateRight_def, Nat.reduceMod, Nat.reduceSub, tableRead_eq_entry,
      BitVec.extractLsb'_toNat, Nat.shiftRight_zero, Nat.reducePow]
  · have htop : u.toNat / 2 ^ (8 * 3) % 256 = u.toNat / 2 ^ 24 := by have := u.isLt; omega
    rw [h, tableRead_quarterIndex, tableRead_quarterIndex, tableRead_quarterIndex,
      tableRead_quarterIndex, htop]
    simp

/-! ### The roles of the tables -/

/-- R24, R102: the active table by the value of CNT. -/
theorem activeTable_eq (cnt : BitVec 11) :
    activeTable cnt = if cnt.toNat < 1024 then .p else .q := by
  split
  · next hlt => exact activeTable_of_lt hlt
  · next hge => exact activeTable_of_ge (Nat.le_of_not_lt hge)

/-- R109: two counter values give the tables the same roles when they are in the same half-cycle. -/
theorem activeTable_eq_iff (c d : BitVec 11) :
    activeTable c = activeTable d ↔ (c.toNat < 1024 ↔ d.toNat < 1024) := by
  rw [activeTable_eq, activeTable_eq]
  by_cases hc : c.toNat < 1024 <;> by_cases hd : d.toNat < 1024 <;> simp [hc, hd]

theorem table_active (s : State) (cnt : BitVec 11) :
    s.table (activeTable cnt) = if cnt.toNat < 1024 then s.p else s.q := by
  rw [activeTable_eq]
  split <;> rfl

theorem table_passive (s : State) (cnt : BitVec 11) :
    s.table (activeTable cnt).other = if cnt.toNat < 1024 then s.q else s.p := by
  rw [activeTable_eq]
  split <;> rfl

/-! ### One step -/

/-- R12: an entry read some places back, by number. -/
theorem tableRead_indexBack (t : Table) (j : Index) {k : Nat} (hk : k ≤ 1024) :
    tableRead t (indexBack j k) = entry t (j.toNat + 1024 - k) := by
  rw [tableRead_eq_entry, indexBack_toNat j hk, entry_mod]

/-- R106: the value a step writes, by entries. -/
theorem updateValue_eq (a b : Table) (j : Index) :
    updateValue a b j = entry a j.toNat + entry a (j.toNat + 1024 - 10)
      + g b (entry a (j.toNat + 1024 - 3)) (entry a (j.toNat + 1024 - 1023)) := by
  rw [updateValue, tableRead_indexBack a j (by decide), tableRead_indexBack a j (by decide),
    tableRead_indexBack a j (by decide), tableRead_eq_entry]

/-- R106: the word a step returns, by entries. -/
theorem outputWord_eq (a b : Table) (j : Index) :
    outputWord a b j = h b (entry a (j.toNat + 1024 - 12)) ^^^ entry a j.toNat := by
  rw [outputWord, tableRead_indexBack a j (by decide), tableRead_eq_entry]

/-- R106: the entry of the active table a step writes. -/
theorem stepFunction_active_entry (s : State) :
    entry ((stepFunction s).1.table (activeTable s.cnt)) (s.cnt.toNat % 1024)
      = updateValue (s.table (activeTable s.cnt)) (s.table (activeTable s.cnt).other)
          (stepIndex s.cnt) := by
  rw [stepFunction_active, entry_tableWrite, stepIndex_toNat, Nat.mod_mod, if_pos rfl]

/-- R106: a step writes no other entry of the active table. -/
theorem stepFunction_active_entry_ne (s : State) {k : Nat} (hk : k < 1024)
    (hne : k ≠ s.cnt.toNat % 1024) :
    entry ((stepFunction s).1.table (activeTable s.cnt)) k
      = entry (s.table (activeTable s.cnt)) k := by
  rw [stepFunction_active, entry_tableWrite, stepIndex_toNat, Nat.mod_eq_of_lt hk, if_neg hne]

theorem stepFunction_cnt_toNat (s : State) :
    (stepFunction s).1.cnt.toNat = (s.cnt.toNat + 1) % 2048 := by
  rw [stepFunction_cnt, BitVec.toNat_add]
  rfl

/-- Settles O27: the tables of the statement are the active and the passive one, whose entries after a step
the lemmas above give. -/
theorem stepWritesOneEntryAndCounter : Obligations.StepWritesOneEntryAndCounter := by
  intro s
  simp only [← table_active, ← table_passive]
  refine ⟨?_, fun k => stepFunction_active_entry_ne s, stepFunction_passive s, ?_,
    stepFunction_cnt_toNat s, stepFunction_ksbuf s, stepFunction_cur s, stepFunction_ready s,
    stepFunction_inbox s, stepFunction_payload s, stepFunction_outbox s, stepFunction_draws s⟩
  · rw [stepFunction_active_entry, updateValue_eq, stepIndex_toNat]
  · rw [stepFunction_word, outputWord_eq, stepIndex_toNat]

/-- R106: a step taken while P is active leaves Q alone. -/
theorem stepFunction_q_of_lt {s : State} (hlt : s.cnt.toNat < 1024) : (stepFunction s).1.q = s.q := by
  simpa [activeTable_of_lt hlt] using stepFunction_passive s

/-- R106: a step taken while Q is active leaves P alone. -/
theorem stepFunction_p_of_ge {s : State} (hge : 1024 ≤ s.cnt.toNat) : (stepFunction s).1.p = s.p := by
  simpa [activeTable_of_ge hge] using stepFunction_passive s

/-- Settles O28: CNT + 1 is in the other half-cycle exactly when CNT is the last value of its own. -/
theorem rolesFlipAtHalfCycles : Obligations.RolesFlipAtHalfCycles := by
  intro s
  refine ⟨?_, fun hc => ⟨?_, stepFunction_q_of_lt (by simp [hc])⟩,
    fun hc => ⟨?_, stepFunction_p_of_ge (by simp [hc])⟩⟩
  · have hlt : s.cnt.toNat < 2048 := s.cnt.isLt
    have hfirst : s.cnt = 1023 ↔ s.cnt.toNat = 1023 := BitVec.toNat_inj.symm
    have hsecond : s.cnt = 2047 ↔ s.cnt.toNat = 2047 := BitVec.toNat_inj.symm
    rw [ne_eq, activeTable_eq_iff, stepFunction_cnt_toNat, hfirst, hsecond]
    omega
  · rw [stepFunction_cnt, hc]
    rfl
  · rw [stepFunction_cnt, hc]
    rfl

/-! ### Half-cycles -/

/-- A run of steps, by its last step. -/
theorem runSteps_succ_last (n : Nat) (s : State) :
    (runSteps (n + 1) s).1 = (stepFunction (runSteps n s).1).1 := by
  rw [runSteps_add, runSteps_succ, runSteps_zero]

/-- R108, by the roles the tables have at the start: steps that stay within a half-cycle leave the passive
table alone, and the entries of the active table from the next index on. -/
theorem runSteps_halfCycle (s : State) {n : Nat} (hn : s.cnt.toNat % 1024 + n ≤ 1024) :
    (runSteps n s).1.table (activeTable s.cnt).other = s.table (activeTable s.cnt).other
      ∧ ∀ k, s.cnt.toNat % 1024 + n ≤ k → k < 1024 →
        entry ((runSteps n s).1.table (activeTable s.cnt)) k
          = entry (s.table (activeTable s.cnt)) k := by
  induction n with
  | zero => simp
  | succ n ih =>
    obtain ⟨ihpassive, ihactive⟩ := ih (by omega)
    have hcnt : (runSteps n s).1.cnt.toNat = s.cnt.toNat + n := by
      have hlt : s.cnt.toNat < 2048 := s.cnt.isLt
      rw [runSteps_cnt_toNat]
      omega
    have hroles : activeTable s.cnt = activeTable (runSteps n s).1.cnt := by
      rw [activeTable_eq_iff, hcnt]
      omega
    rw [runSteps_succ_last]
    refine ⟨?_, fun k hk hlt => ?_⟩
    · rw [← ihpassive, hroles, stepFunction_passive]
    · rw [← ihactive k (by omega) hlt, hroles]
      exact stepFunction_active_entry_ne _ hlt (by omega)

/-- Settles O29: `runSteps_halfCycle` for either role of P. -/
theorem halfCycleLeavesPassiveTable : Obligations.HalfCycleLeavesPassiveTable := by
  intro s n hn
  obtain ⟨hpassive, hactive⟩ := runSteps_halfCycle s hn
  refine ⟨fun hlt => ?_, fun hge => ?_⟩
  · rw [activeTable_of_lt hlt] at hpassive hactive
    exact ⟨hpassive, fun k hk => hactive k (by omega)⟩
  · have hhalf : s.cnt.toNat % 1024 = s.cnt.toNat - 1024 := by have := s.cnt.isLt; omega
    rw [activeTable_of_ge hge] at hpassive hactive
    rw [hhalf] at hactive
    exact ⟨hpassive, hactive⟩

/-! ### The command STEP -/

theorem setPayload_self {s : State} {bytes : List Byte} (hp : s.payload = bytes) :
    s.setPayload bytes = s := by
  subst hp
  rfl

/-- R110: STEP of a Ready engine takes one step and returns its word. -/
theorem exec_step_of_ready {s : State} (hr : s.ready = true) (hp : s.payload = []) :
    exec .step s = .next ((stepFunction s).1.send ⟨0x00#8, .word (stepFunction s).2⟩) := by
  rw [exec_step_eq hp, setPayload_self hp, stepBody, if_pos hr]

/-- R110, R152: STEP before INIT gives the error's response and does nothing else. -/
theorem exec_step_of_not_ready {s : State} (hr : s.ready = false) (hp : s.payload = []) :
    exec .step s = .next (s.send ⟨0x03#8, .nothing⟩) := by
  rw [exec_step_eq hp, setPayload_self hp, stepBody, hr, if_neg Bool.false_ne_true]

/-- R130, R152: APPLY before INIT gives the error's response and discards the payload. -/
theorem exec_apply_of_not_ready {len : Nat} {s : State} (hr : s.ready = false)
    (hl : s.payload.length = len) :
    exec (.apply len) s = .next ((s.setPayload []).send ⟨0x03#8, .nothing⟩) := by
  rw [exec_apply_eq hl, applyBody, setPayload_ready, hr, if_neg Bool.false_ne_true]

/-- Settles O30, by `exec_step_of_ready`. -/
theorem stepCompletes : Obligations.StepCompletes := by
  intro s hr hp
  rw [exec_step_of_ready hr hp, State.send, stepFunction_outbox]

/-- Settles O31, by the equation of either command before INIT. -/
theorem useBeforeInitIsRefusedByStatus : Obligations.UseBeforeInitIsRefusedByStatus :=
  fun _ hr => ⟨exec_step_of_not_ready hr, fun _ => exec_apply_of_not_ready hr⟩

/-- Everything a STEP that answers can have done: raised USE_BEFORE_INIT, or taken one step (R110). -/
theorem exec_step_cases {s t : State} (hn : exec .step s = .next t) :
    s.payload = []
      ∧ ((s.ready = false ∧ t = s.send ⟨0x03#8, .nothing⟩)
        ∨ (s.ready = true
          ∧ t = (stepFunction s).1.send ⟨0x00#8, .word (stepFunction s).2⟩)) := by
  have hp : s.payload = [] := List.eq_nil_of_length_eq_zero (exec_next_length hn)
  refine ⟨hp, ?_⟩
  cases hr : s.ready with
  | false =>
    rw [exec_step_of_not_ready hr hp] at hn
    cases hn
    exact .inl ⟨rfl, rfl⟩
  | true =>
    rw [exec_step_of_ready hr hp] at hn
    cases hn
    exact .inr ⟨rfl, rfl⟩

/-- Settles O33: the error's response writes none of these fields, and what one step leaves alone is said by
`stepFunction_active_entry_ne` and `stepFunction_passive`, for either role of P. -/
theorem stepFrame : Obligations.StepFrame := by
  intro s t hn
  obtain ⟨hp, ⟨_, rfl⟩ | ⟨_, rfl⟩⟩ := exec_step_cases hn
  · simp [hp]
  · refine ⟨stepFunction_ksbuf s, stepFunction_cur s, stepFunction_ready s, stepFunction_inbox s,
      stepFunction_draws s, (stepFunction_payload s).trans hp,
      fun hlt => ⟨stepFunction_q_of_lt hlt, fun k hk hne => ?_⟩,
      fun hge => ⟨stepFunction_p_of_ge hge, fun k hk hne => ?_⟩⟩
    · simpa [activeTable_of_lt hlt] using stepFunction_active_entry_ne s hk hne
    · simpa [activeTable_of_ge hge] using stepFunction_active_entry_ne s hk hne

/-- R111: with other contents of KSBUF and CUR a step does the same to the rest and leaves those. -/
theorem stepFunction_setKsbuf_setCur (s : State) (b : Buffer) (c : Fin 65) :
    stepFunction ((s.setKsbuf b).setCur c)
      = (((stepFunction s).1.setKsbuf b).setCur c, (stepFunction s).2) := by
  cases hact : activeTable s.cnt <;> simp only [stepFunction, setCur_cnt, setKsbuf_cnt, hact] <;> rfl

/-- Settles O32: STEP answers by READY alone, and its step ignores both fields
(`stepFunction_setKsbuf_setCur`). -/
theorem stepIgnoresBuffer : Obligations.StepIgnoresBuffer := by
  intro s t b c hn
  change _ ∧ _ ∧ exec .step ((s.setKsbuf b).setCur c) = .next ((t.setKsbuf b).setCur c)
  obtain ⟨hp, ⟨hr, rfl⟩ | ⟨hr, rfl⟩⟩ := exec_step_cases hn
  · refine ⟨rfl, rfl, ?_⟩
    rw [exec_step_of_not_ready (by simpa using hr) (by simpa using hp)]
    rfl
  · refine ⟨stepFunction_ksbuf s, stepFunction_cur s, ?_⟩
    rw [exec_step_of_ready (by simpa using hr) (by simpa using hp), stepFunction_setKsbuf_setCur]
    rfl

/-! ### The keystream of STEPs -/

theorem keystreamWord_zero (s : State) : keystreamWord s 0 = (stepFunction s).2 := by
  rw [keystreamWord, runSteps_zero]

/-- R113: the keystream one step on is the keystream from its next word on. -/
theorem keystreamWord_stepFunction (s : State) (k : Nat) :
    keystreamWord (stepFunction s).1 k = keystreamWord s (k + 1) := by
  rw [Nat.add_comm k 1, ← keystreamWord_runSteps, runSteps_succ, runSteps_zero]

/-- R110, R113: a STEP transaction sent to a Ready engine returns keystream word 0 and leaves a Ready engine
whose keystream goes on from word 1. -/
theorem step_of_stepCommand {s : State} {rest : List HostInput} (hr : s.ready = true)
    (hin : s.inbox = .command 0x00000002#32 [] :: rest) :
    ∃ t, step s = .next t ∧ t.ready = true ∧ t.inbox = rest
      ∧ t.outbox = s.outbox ++ [⟨0x00#8, .word (keystreamWord s 0)⟩]
      ∧ ∀ k, keystreamWord t k = keystreamWord s (k + 1) := by
  have hd : decode 0x00000002#32 = .command .step := by decide
  have hreceive : ∀ k, keystreamWord ((s.setInbox rest).setPayload []) k = keystreamWord s k :=
    keystreamWord_congr rfl rfl rfl
  have hexec := exec_step_of_ready (s := (s.setInbox rest).setPayload []) hr rfl
  refine ⟨_, (step_command hin hd).trans hexec, by simpa using hr, by simp, ?_, fun k => ?_⟩
  · simp [← hreceive, keystreamWord_zero]
  · rw [← hreceive, ← keystreamWord_stepFunction]
    exact keystreamWord_congr (send_p _ _) (send_q _ _) (send_cnt _ _) k

/-- Settles O34, by induction on the number of STEPs: after the first one, word k is the word k + 1 of
before. -/
theorem stepsReturnKeystreamWords : Obligations.StepsReturnKeystreamWords := by
  intro n
  induction n with
  | zero => exact fun s _ _ => ⟨s, rfl, by simp⟩
  | succ n ih =>
    intro s hr hin
    obtain ⟨u, hstep, hready, hinbox, houtbox, hwords⟩ := step_of_stepCommand hr hin
    obtain ⟨t, hrun, hout⟩ := ih u hready hinbox
    refine ⟨t, (run_succ n hstep).trans hrun, ?_⟩
    rw [hout, houtbox, List.range_succ_eq_map]
    simp [hwords, Function.comp_def]

end Sys2Proof.Machine
end

section
/-!
The obligation of `42_batch_generator.md`: a refill is 16 steps and CUR <- 0 (R120, R123).
-/

namespace Sys2Proof.Machine

/-- R123: a refill moves CNT on by 16, modulo 2048. -/
theorem refill_cnt_toNat (s : State) : (refill s).cnt.toNat = (s.cnt.toNat + 16) % 2048 := by
  rw [refill_cnt, BitVec.toNat_add]
  rfl

/-- Settles O36, field by field: the tables, CNT and CUR by what the refill writes, the rest by its frame. -/
theorem refillTakesSixteenSteps : Obligations.RefillTakesSixteenSteps := fun s =>
  ⟨refill_p s, refill_q s, refill_cnt_toNat s, refill_cur s, refill_ready s, refill_inbox s,
    refill_payload s, refill_outbox s, refill_draws s⟩

end Sys2Proof.Machine
end

section
/-!
The obligations of `43_stream_coder.md`: the bytes APPLY returns (R130, R131, R134, R135) and the engine it
leaves (R131 to R133). An engine offers one stream of bytes, its buffered ones and then those of the next
steps (`streamByte`); consuming bytes goes on along it, with a refill at every 64th byte (`refilled`).
-/

namespace Sys2Proof.Machine

/-! ### The same engine state -/

section sameEngine
variable {s t u : State}

theorem SameEngine.symm (hsame : SameEngine s t) : SameEngine t s := by
  obtain ⟨hp, hq, hcnt, hbuf, hcur, hready⟩ := hsame
  exact ⟨hp.symm, hq.symm, hcnt.symm, hbuf.symm, hcur.symm, hready.symm⟩

theorem SameEngine.trans (hst : SameEngine s t) (htu : SameEngine t u) : SameEngine s u := by
  obtain ⟨hp, hq, hcnt, hbuf, hcur, hready⟩ := hst
  obtain ⟨hp', hq', hcnt', hbuf', hcur', hready'⟩ := htu
  exact ⟨hp.trans hp', hq.trans hq', hcnt.trans hcnt', hbuf.trans hbuf', hcur.trans hcur',
    hready.trans hready'⟩

theorem SameEngine.ksbuf_eq (hsame : SameEngine s t) : s.ksbuf = t.ksbuf := hsame.2.2.2.1
theorem SameEngine.cur_eq (hsame : SameEngine s t) : s.cur = t.cur := hsame.2.2.2.2.1
theorem SameEngine.ready_eq (hsame : SameEngine s t) : s.ready = t.ready := hsame.2.2.2.2.2

theorem sameEngine_setPayload (s : State) (l : List Byte) : SameEngine (s.setPayload l) s :=
  ⟨rfl, rfl, rfl, rfl, rfl, rfl⟩

theorem sameEngine_setInbox (s : State) (l : List HostInput) : SameEngine (s.setInbox l) s :=
  ⟨rfl, rfl, rfl, rfl, rfl, rfl⟩

theorem sameEngine_send (s : State) (r : Response) : SameEngine (s.send r) s :=
  ⟨rfl, rfl, rfl, rfl, rfl, rfl⟩

theorem sameEngine_setCur (hsame : SameEngine s t) (c : Fin 65) :
    SameEngine (s.setCur c) (t.setCur c) := by
  obtain ⟨hp, hq, hcnt, hbuf, _, hready⟩ := hsame
  exact ⟨hp, hq, hcnt, hbuf, rfl, hready⟩

/-- A refill writes the buffer from P, Q and CNT (R120). -/
theorem sameEngine_refill (hsame : SameEngine s t) : SameEngine (refill s) (refill t) := by
  obtain ⟨hp, hq, hcnt, _, _, hready⟩ := hsame
  obtain ⟨hwords, hp', hq'⟩ := runSteps_congr 16 hp hq hcnt
  exact ⟨by simpa, by simpa, by simp [hcnt], by simp [hwords], by simp, by simpa⟩

/-- Consuming a byte depends on the engine state alone (R131). -/
theorem sameEngine_takeByte (hsame : SameEngine s t) :
    (takeByte s).2 = (takeByte t).2 ∧ SameEngine (takeByte s).1 (takeByte t).1 := by
  rw [takeByte_eq, takeByte_eq, ← hsame.cur_eq]
  split
  · have hfill := sameEngine_refill hsame
    exact ⟨by rw [hfill.ksbuf_eq], sameEngine_setCur hfill 1⟩
  · exact ⟨by rw [hsame.ksbuf_eq], sameEngine_setCur hsame _⟩

/-- Consuming bytes depends on the engine state alone (R130). -/
theorem sameEngine_applyBytes (xs : List Byte) (hsame : SameEngine s t) :
    (applyBytes xs s).2 = (applyBytes xs t).2
      ∧ SameEngine (applyBytes xs s).1 (applyBytes xs t).1 := by
  induction xs generalizing s t with
  | nil => exact ⟨rfl, hsame⟩
  | cons x xs ih =>
    obtain ⟨hbyte, hnext⟩ := sameEngine_takeByte hsame
    obtain ⟨hout, hlast⟩ := ih hnext
    simp only [applyBytes_cons, hbyte, hout]
    exact ⟨trivial, hlast⟩

end sameEngine

/-! ### The command APPLY -/

/-- What an APPLY of `xs` makes of the Ready engine `s` (R130): the engine that consuming the bytes leaves,
and one response. -/
structure Applied (xs : List Byte) (s t : State) : Prop where
  engine : SameEngine t (applyBytes xs s).1
  outbox : t.outbox = s.outbox ++ [⟨0x00#8, .bytes (applyBytes xs s).2⟩]
  inbox : t.inbox = s.inbox
  draws : t.draws = s.draws
  payload : t.payload = []

/-- R130: APPLY of a Ready engine answers OK with the bytes it consumes. -/
theorem exec_apply_of_ready {s : State} (xs : List Byte) (hr : s.ready = true) :
    ∃ t, exec (.apply xs.length) (s.setPayload xs) = .next t ∧ Applied xs s t := by
  obtain ⟨hout, hsame⟩ := sameEngine_applyBytes xs (sameEngine_setPayload s [])
  have hexec := exec_apply_eq (len := xs.length) (s := s.setPayload xs) rfl
  rw [applyBody, if_pos (by simpa using hr)] at hexec
  refine ⟨_, hexec, (sameEngine_send _ _).trans hsame, ?_, ?_, ?_, ?_⟩
  · rw [send_outbox, applyBytes_outbox]
    exact congrArg (fun out => s.outbox ++ [⟨0x00#8, .bytes out⟩]) hout
  · rw [send_inbox, applyBytes_inbox]
    rfl
  · rw [send_draws, applyBytes_draws]
    rfl
  · rw [send_payload, applyBytes_payload]
    rfl

/-- An answer of APPLY of a Ready engine is the one of `exec_apply_of_ready`. -/
theorem applied_of_exec {xs : List Byte} {s t : State} (hr : s.ready = true)
    (hn : exec (.apply xs.length) (s.setPayload xs) = .next t) : Applied xs s t := by
  obtain ⟨t', hexec, happlied⟩ := exec_apply_of_ready xs hr
  rw [hexec] at hn
  cases hn
  exact happlied

theorem Applied.ready {xs : List Byte} {s t : State} (ha : Applied xs s t) : t.ready = s.ready :=
  ha.engine.ready_eq.trans (applyBytes_ready xs s)

/-- The bytes an APPLY returned are those it consumed the keystream for. -/
theorem Applied.out_eq {xs out : List Byte} {s t : State} (ha : Applied xs s t)
    (hout : t.outbox = s.outbox ++ [⟨0x00#8, .bytes out⟩]) : out = (applyBytes xs s).2 := by
  simpa [hout] using ha.outbox

/-- Settles O37: no byte is consumed, so the response is all that is added. -/
theorem zeroLengthApplyChangesNothing : Obligations.ZeroLengthApplyChangesNothing := by
  intro s hr hp
  rw [exec_apply_eq (by rw [hp]; rfl), hp, applyBody, if_pos (by simpa using hr), applyBytes_nil]
  rfl

/-- Settles O44, by what APPLY can have done: an error writes none of these fields, and neither does
consuming bytes, the storage and CNT apart where the buffer is outrun. -/
theorem applyFrame : Obligations.ApplyFrame := by
  intro len s t hn
  rcases exec_cases hn with ⟨e, _, rfl⟩ | ⟨hi, _⟩ | ⟨_, hi, _⟩ | ⟨hr, hi, rfl⟩
  · simp
  · cases hi
  · cases hi
  · cases hi
    refine ⟨by simp, by simp, by simp, by simp, fun hle => ?_, fun hf => by simp [hr] at hf⟩
    have hfits : s.cur.val + s.payload.length < 65 :=
      Nat.lt_succ_of_le (hle.resolve_left (by simp [hr]))
    simp [applyBytes_of_buffered s.payload (s.setPayload []) (c := ⟨_, hfits⟩) rfl]

/-! ### The stream of bytes an engine offers -/

/-- Byte k of the stream from the cursor on: the buffered bytes first, then those of the words of the next
steps (R131, R113). -/
def streamByte (s : State) (k : Nat) : Byte :=
  if s.cur.val + k < 64 then bufferByte s.ksbuf (s.cur.val + k) else keystreamByte s (s.cur.val + k - 64)

/-- With the buffer exhausted the stream is the logical keystream (R113). -/
theorem streamByte_of_exhausted {s : State} (hc : s.cur = 64) (k : Nat) :
    streamByte s k = keystreamByte s k := by
  simp [streamByte, hc]

/-- Sixteen words are 64 bytes: the keystream after r batches of steps (R113). -/
theorem keystreamByte_runSteps (s : State) (r k : Nat) :
    keystreamByte (runSteps (16 * r) s).1 k = keystreamByte s (64 * r + k) := by
  have hword : 16 * r + k / 4 = (64 * r + k) / 4 := by omega
  have hbyte : k % 4 = (64 * r + k) % 4 := by omega
  rw [keystreamByte, keystreamByte, keystreamWord_runSteps, hword, hbyte]

/-- The keystream does not depend on the cursor (R113). -/
theorem keystreamByte_setCur (s : State) (c : Fin 65) (k : Nat) :
    keystreamByte (s.setCur c) k = keystreamByte s k := by
  rw [keystreamByte, keystreamWord_congr (setCur_p s c) (setCur_q s c) (setCur_cnt s c), keystreamByte]

/-- The keystream after a refill is the one 64 bytes on (R120). -/
theorem keystreamByte_refill (s : State) (k : Nat) :
    keystreamByte (refill s) k = keystreamByte s (64 + k) := by
  have hwords : ∀ i, keystreamWord (refill s) i = keystreamWord (runSteps 16 s).1 i :=
    keystreamWord_congr (refill_p s) (refill_q s)
      ((refill_cnt s).trans (runSteps_cnt 16 s).symm)
  rw [keystreamByte, hwords]
  exact keystreamByte_runSteps s 1 k

/-- A refill buffers the first 64 bytes of the keystream: the stream is the keystream from there (R120). -/
theorem streamByte_refill (s : State) (k : Nat) : streamByte (refill s) k = keystreamByte s k := by
  rw [streamByte, refill_cur, keystreamByte_refill]
  simp only [Fin.val_zero, Nat.zero_add]
  split
  · next hlt => exact bufferByte_refill s hlt
  · next hge => rw [Nat.add_sub_cancel' (Nat.le_of_not_lt hge)]

/-- R131: below 64 a byte is read at the cursor, which moves on by one. -/
theorem takeByte_of_lt {s : State} (hlt : s.cur.val < 64) :
    takeByte s = (s.setCur (advanceCursor s.cur), bufferByte s.ksbuf s.cur.val) := by
  have hne : s.cur ≠ 64 := fun he => by simp [he] at hlt
  rw [takeByte_eq, if_neg hne, bufferRead_index]

/-- R131: at 64 a byte is consumed as it is after a refill. -/
theorem takeByte_of_exhausted {s : State} (hc : s.cur = 64) : takeByte s = takeByte (refill s) := by
  rw [takeByte_eq, if_pos hc, takeByte_eq, if_neg (by simp), refill_cur]
  rfl

/-- A cursor is below 64, or the buffer is exhausted (R27). -/
theorem cursor_lt_or_exhausted (c : Fin 65) : c.val < 64 ∨ c = 64 := by omega

/-- R131: the byte consumed is the next one of the stream, and the stream goes on after it. -/
theorem takeByte_streamByte (s : State) :
    (takeByte s).2 = streamByte s 0 ∧ ∀ k, streamByte (takeByte s).1 k = streamByte s (k + 1) := by
  have hbuffered : ∀ u : State, u.cur.val < 64 → (takeByte u).2 = streamByte u 0
      ∧ ∀ k, streamByte (takeByte u).1 k = streamByte u (k + 1) := by
    intro u hlt
    rw [takeByte_of_lt hlt]
    refine ⟨by simp [streamByte, hlt], fun k => ?_⟩
    have hpos : u.cur.val + 1 + k = u.cur.val + (k + 1) := by omega
    simp only [streamByte, setCur_cur, advanceCursor_val hlt, hpos, setCur_ksbuf, keystreamByte_setCur]
  rcases cursor_lt_or_exhausted s.cur with hlt | hc
  · exact hbuffered s hlt
  · have hfilled := hbuffered (refill s) (by simp)
    simp only [streamByte_refill, ← streamByte_of_exhausted hc] at hfilled
    rwa [takeByte_of_exhausted hc]

/-- R131: output byte k is input byte k XOR byte k of the stream. -/
theorem applyBytes_getD {xs : List Byte} {k : Nat} (s : State) (hk : k < xs.length) :
    (applyBytes xs s).2.getD k 0 = xs.getD k 0 ^^^ streamByte s k := by
  induction xs generalizing s k with
  | nil => simp at hk
  | cons x xs ih =>
    obtain ⟨hbyte, hnext⟩ := takeByte_streamByte s
    rw [applyBytes_cons]
    cases k with
    | zero => simp [hbyte]
    | succ k =>
      rw [List.getD_cons_succ, List.getD_cons_succ, ih _ (Nat.lt_of_succ_lt_succ hk), hnext]

/-- Settles O38, by `applyBytes_getD`: `streamByte` is the byte the statement writes out. -/
theorem applyXorsNextKeystream : Obligations.ApplyXorsNextKeystream := by
  intro s hr
  obtain ⟨t, hexec, ha⟩ := exec_apply_of_ready s.payload hr
  exact ⟨t, _, hexec, ha.outbox, applyBytes_length _ _, fun k hk => applyBytes_getD s hk, ha.ready,
    ha.inbox, ha.draws, ha.payload⟩

/-! ### Refills -/

/-- The engine after r refills, the last one just run: the buffer holds the bytes of the last 16 words. -/
def refilled : Nat → State → State
  | 0, s => s
  | r + 1, s => refill (runSteps (16 * r) s).1

/-- A run of steps ignores KSBUF and CUR and leaves them (R111). -/
theorem runSteps_setKsbuf_setCur (k : Nat) (s : State) (b : Buffer) (c : Fin 65) :
    runSteps k ((s.setKsbuf b).setCur c)
      = (((runSteps k s).1.setKsbuf b).setCur c, (runSteps k s).2) := by
  induction k generalizing s with
  | zero => rfl
  | succ k ih => simp only [runSteps_succ, stepFunction_setKsbuf_setCur, ih]

theorem setKsbuf_setCur_setKsbuf_setCur (s : State) (b b' : Buffer) (c c' : Fin 65) :
    (((s.setKsbuf b).setCur c).setKsbuf b').setCur c' = (s.setKsbuf b').setCur c' := (rfl)

/-- A refill writes KSBUF and CUR without reading them (R120). -/
theorem refill_setKsbuf_setCur (s : State) (b : Buffer) (c : Fin 65) :
    refill ((s.setKsbuf b).setCur c) = refill s := by
  simp only [refill, runSteps_setKsbuf_setCur, setKsbuf_setCur_setKsbuf_setCur]

/-- A refill after a refill, wherever the cursor stands, is one 16 steps on (R120). -/
theorem refill_refill (s : State) (c : Fin 65) :
    refill ((refill s).setCur c) = refill (runSteps 16 s).1 := by
  have hfilled : (refill s).setCur c
      = ((runSteps 16 s).1.setKsbuf (packBuffer (runSteps 16 s).2)).setCur c := by
    rw [refill, setCur_setCur, batchWords]
  rw [hfilled, refill_setKsbuf_setCur]

/-- Another refill, wherever the cursor stands, runs the next 16 steps (R120). -/
theorem refill_refilled (r : Nat) (s : State) (c : Fin 65) :
    refill ((refilled r s).setCur c) = refilled (r + 1) s := by
  cases r with
  | zero => exact refill_setKsbuf_setCur s s.ksbuf c
  | succ r => rw [refilled, refill_refill, refilled, Nat.mul_succ, runSteps_add]

/-- Refills move the tables and CNT as their steps do (R120). -/
theorem refilled_steps (r : Nat) (s : State) :
    (refilled r s).p = (runSteps (16 * r) s).1.p ∧ (refilled r s).q = (runSteps (16 * r) s).1.q
      ∧ (refilled r s).cnt = (runSteps (16 * r) s).1.cnt := by
  cases r with
  | zero => exact ⟨rfl, rfl, rfl⟩
  | succ r =>
    rw [refilled, Nat.mul_succ, runSteps_add]
    exact ⟨refill_p _, refill_q _, (refill_cnt _).trans (runSteps_cnt 16 _).symm⟩

/-- The buffer after refills (R44, R120). -/
theorem bufferByte_refilled {r k : Nat} (s : State) (hr : 0 < r) (hk : k < 64) :
    bufferByte (refilled r s).ksbuf k = keystreamByte s (64 * (r - 1) + k) := by
  obtain ⟨r, rfl⟩ := Nat.exists_eq_succ_of_ne_zero (Nat.ne_of_gt hr)
  exact (bufferByte_refill _ hk).trans (keystreamByte_runSteps s r k)

/-- R133: consuming bytes runs the refills their number asks for, and moves the cursor. -/
theorem applyBytes_state (xs : List Byte) (s : State) :
    ∃ c : Fin 65, c.val + 64 * refillCount s.cur.val xs.length = s.cur.val + xs.length
      ∧ (applyBytes xs s).1 = (refilled (refillCount s.cur.val xs.length) s).setCur c := by
  induction xs using List.reverseRecOn with
  | nil =>
    have hnone : refillCount s.cur.val 0 = 0 := by simp [refillCount]
    exact ⟨s.cur, by simp [hnone], by rw [List.length_nil, hnone]; rfl⟩
  | append_singleton xs x ih =>
    obtain ⟨c, hc, hstate⟩ := ih
    have hlast : (applyBytes (xs ++ [x]) s).1 = (takeByte (applyBytes xs s).1).1 := by
      rw [applyBytes_append]
      rfl
    rw [hlast, hstate, List.length_append, List.length_singleton]
    generalize hr : refillCount s.cur.val xs.length = r at hc
    have hcur : s.cur.val < 65 := s.cur.isLt
    rcases cursor_lt_or_exhausted c with hlt | rfl
    · have hsame : refillCount s.cur.val (xs.length + 1) = r := by
        simp only [refillCount] at hr ⊢
        omega
      refine ⟨advanceCursor c, by rw [advanceCursor_val hlt, hsame]; omega, ?_⟩
      rw [takeByte_of_lt (by simpa using hlt), hsame, setCur_setCur, setCur_cur]
    · change 64 + 64 * r = s.cur.val + xs.length at hc
      have hmore : refillCount s.cur.val (xs.length + 1) = r + 1 := by
        simp only [refillCount] at hr ⊢
        omega
      refine ⟨1, by rw [hmore, Fin.val_one]; omega, ?_⟩
      rw [takeByte_eq, if_pos (setCur_cur _ _), refill_refilled, hmore]

/-- Settles O39: by `applyBytes_state`, R133's two cases are no refill and at least one. -/
theorem applyCountsRefills : Obligations.ApplyCountsRefills := by
  intro s hr
  obtain ⟨t, hexec, ha⟩ := exec_apply_of_ready s.payload hr
  obtain ⟨c, hc, hstate⟩ := applyBytes_state s.payload s
  obtain ⟨hp, hq, hcnt, hbuf, hcur, _⟩ := ha.engine
  rw [hstate] at hp hq hcnt hbuf hcur
  have hcount : refillCount s.cur.val s.payload.length
      = (s.payload.length - (64 - s.cur.val) + 63) / 64 := rfl
  have hval : t.cur.val = c.val := congrArg Fin.val hcur
  have hrange : s.cur.val < 65 := s.cur.isLt
  refine ⟨t, hexec, fun hle => ?_, fun hlt => ?_⟩
  · have hnone : refillCount s.cur.val s.payload.length = 0 := by omega
    rw [hnone] at hp hq hcnt hbuf hc
    exact ⟨by omega, hcnt, hp, hq, hbuf⟩
  · obtain ⟨hrp, hrq, hrcnt⟩ := refilled_steps (refillCount s.cur.val s.payload.length) s
    refine ⟨by omega, ?_, hp.trans hrp, hq.trans hrq, fun k hk => ?_⟩
    · rw [hcnt, setCur_cnt, hrcnt, runSteps_cnt_toNat]
    · rw [hbuf, setCur_ksbuf, bufferByte_refilled s (by omega) hk]

/-! ### Several APPLYs -/

/-- R131: what consuming bytes leaves depends on their number alone. -/
theorem applyBytes_state_of_length_eq {xs ys : List Byte} (s : State) (hl : xs.length = ys.length) :
    (applyBytes xs s).1 = (applyBytes ys s).1 := by
  obtain ⟨c, hc, hx⟩ := applyBytes_state xs s
  obtain ⟨d, hd, hy⟩ := applyBytes_state ys s
  rw [hl] at hc hx
  have hcd : c = d := Fin.ext (by omega)
  rw [hx, hy, hcd]

/-- R135: the output consumed from the same engine gives the input back. -/
theorem applyBytes_output (xs : List Byte) (s : State) :
    applyBytes (applyBytes xs s).2 s = ((applyBytes xs s).1, xs) := by
  induction xs generalizing s with
  | nil => rfl
  | cons x xs ih => simp [applyBytes_cons, ih]

/-- Settles O42: the engine by `applyBytes_state_of_length_eq`, and the stream cancels between the two
outputs. -/
theorem applyStateIgnoresData : Obligations.ApplyStateIgnoresData := by
  intro s t t' xs ys out out' hr hl hxs hys hout hout'
  have hx := applied_of_exec hr hxs
  have hy := applied_of_exec hr hys
  refine ⟨hx.engine.trans ?_, fun k hk => ?_⟩
  · rw [applyBytes_state_of_length_eq s hl]
    exact hy.engine.symm
  · rw [hx.out_eq hout, hy.out_eq hout', applyBytes_getD s hk, applyBytes_getD s (hl ▸ hk)]
    calc (xs.getD k 0 ^^^ streamByte s k) ^^^ (ys.getD k 0 ^^^ streamByte s k)
        = (xs.getD k 0 ^^^ ys.getD k 0) ^^^ (streamByte s k ^^^ streamByte s k) := by ac_rfl
      _ = xs.getD k 0 ^^^ ys.getD k 0 := by simp

/-- Settles O43: `applyBytes_output` on the first engine, and the second is in the same state. -/
theorem applyUndoesItself : Obligations.ApplyUndoesItself := by
  intro s s' t xs ys hr hsame hn hout
  have ha := applied_of_exec hr hn
  obtain rfl := ha.out_eq hout
  obtain ⟨t', hexec, ha'⟩ := exec_apply_of_ready (applyBytes xs s).2 (hsame.ready_eq ▸ hr)
  obtain ⟨hback, hengine⟩ := sameEngine_applyBytes (applyBytes xs s).2 hsame
  rw [applyBytes_output] at hback hengine
  refine ⟨t', hexec, ?_, ha.engine.trans (hengine.trans ha'.engine.symm)⟩
  rw [ha'.outbox, ← hback]

/-- Settles O40: consuming a joined input is consuming its parts in order (`applyBytes_append`), and the
second APPLY finds the engine the first one left. -/
theorem splitApplyIsOneApply : Obligations.SplitApplyIsOneApply := by
  intro s xs ys hr
  obtain ⟨t, ht, hxs⟩ := exec_apply_of_ready xs hr
  obtain ⟨u, hu, hys⟩ := exec_apply_of_ready ys (hxs.ready.trans hr)
  obtain ⟨v, hv, hjoined⟩ := exec_apply_of_ready (xs ++ ys) hr
  obtain ⟨hout, hengine⟩ := sameEngine_applyBytes ys hxs.engine
  have hwhole := hjoined.engine
  rw [applyBytes_append] at hwhole
  refine ⟨t, u, v, (applyBytes xs s).2, (applyBytes ys (applyBytes xs s).1).2, ht, hu, hv, ?_, ?_,
    hys.engine.trans (hengine.trans hwhole.symm)⟩
  · rw [hys.outbox, hxs.outbox, hout, List.append_assoc]
    rfl
  · rw [hjoined.outbox, applyBytes_append]

/-- R130: an APPLY transaction sent to a Ready engine is served as `Applied` says, once taken. -/
theorem step_of_applyCommand {s : State} {xs : List Byte} {rest : List HostInput} (hr : s.ready = true)
    (hl : xs.length ≤ 65535) (hin : s.inbox = .command (encode (.apply xs.length)) xs :: rest) :
    ∃ t, step s = .next t ∧ Applied xs (s.setInbox rest) t := by
  have hd : decode (encode (.apply xs.length)) = .command (.apply xs.length) :=
    decode_encode (decide_eq_true hl)
  rw [step_command hin hd]
  exact exec_apply_of_ready (s := s.setInbox rest) xs hr

/-- R134: APPLYs sent one after the other to a Ready engine return, joined, what one run over the joined
inputs returns. -/
theorem run_of_applyCommands (parts : List (List Byte)) {s : State} (hr : s.ready = true)
    (hl : ∀ x ∈ parts, x.length ≤ 65535)
    (hin : s.inbox = parts.map fun x => .command (encode (.apply x.length)) x) :
    ∃ (t : State) (outs : List (List Byte)), run parts.length s = .next t
      ∧ t.outbox = s.outbox ++ outs.map (fun o => ⟨0x00#8, .bytes o⟩)
      ∧ outs.map List.length = parts.map List.length
      ∧ outs.flatten = (applyBytes parts.flatten s).2 := by
  induction parts generalizing s with
  | nil => exact ⟨s, [], rfl, by simp, rfl, rfl⟩
  | cons x parts ih =>
    obtain ⟨hx, hparts⟩ := List.forall_mem_cons.mp hl
    obtain ⟨u, hstep, ha⟩ := step_of_applyCommand hr hx hin
    obtain ⟨t, outs, hrun, houtbox, hlengths, hflat⟩ := ih (ha.ready.trans hr) hparts ha.inbox
    obtain ⟨hout, hsame⟩ := sameEngine_applyBytes x (sameEngine_setInbox s _)
    obtain ⟨hrest, _⟩ := sameEngine_applyBytes parts.flatten (ha.engine.trans hsame)
    refine ⟨t, (applyBytes x s).2 :: outs, (run_succ _ hstep).trans hrun, ?_, ?_, ?_⟩
    · rw [houtbox, ha.outbox, hout, List.append_assoc]
      rfl
    · rw [List.map_cons, List.map_cons, applyBytes_length, hlengths]
    · rw [List.flatten_cons, List.flatten_cons, applyBytes_append, hflat, hrest]

/-- Settles O41: by `run_of_applyCommands` the joined output is that of one run of bytes, whose stream is the
logical keystream while the buffer is exhausted. -/
theorem applySequenceIsContinuous : Obligations.ApplySequenceIsContinuous := by
  intro parts s hr hc hl hin
  obtain ⟨t, outs, hrun, houtbox, hlengths, hflat⟩ := run_of_applyCommands parts hr hl hin
  refine ⟨t, outs, hrun, houtbox, hlengths, by rw [hflat, applyBytes_length], fun k hk => ?_⟩
  rw [hflat, applyBytes_getD s hk, streamByte_of_exhausted hc]

end Sys2Proof.Machine
end

section
/-!
The obligations of `60_exceptions.md`: the status codes (R150) and their order (R153), what an error leaves
alone (R152), the idle engine and a loss of power (R163).
-/

namespace Sys2Proof.Machine

/-- Settles O11: the codes are those of `Status.code`. -/
theorem statusCodesAsTabled : Obligations.StatusCodesAsTabled := ⟨rfl, rfl, rfl, rfl, rfl⟩

/-! ### The status of an answer -/

theorem expectedStatus_of_illegal {w : Word} {why : Illegal} (ready : Bool) (hd : decode w = .illegal why) :
    expectedStatus ready w = .illegalCommand := by
  simp only [expectedStatus, hd]

/-- R81, R153: INIT ends with the error of its length check, if there is one, whether or not READY is set. -/
theorem expectedStatus_of_init {w : Word} {klen ivlen : Nat} (ready : Bool)
    (hd : decode w = .command (.init klen ivlen)) :
    expectedStatus ready w = (lengthError klen ivlen).getD .ok := by
  simp only [expectedStatus, hd, lengthError]
  split
  · rfl
  · split <;> rfl

theorem expectedStatus_of_step {w : Word} (ready : Bool) (hd : decode w = .command .step) :
    expectedStatus ready w = if ready then .ok else .useBeforeInit := by
  simp only [expectedStatus, hd]

theorem expectedStatus_of_apply {w : Word} {len : Nat} (ready : Bool)
    (hd : decode w = .command (.apply len)) :
    expectedStatus ready w = if ready then .ok else .useBeforeInit := by
  simp only [expectedStatus, hd]

/-- R153: a command with a payload of its length is answered by one response, which has the status its word
is to end with. -/
theorem exec_answers_expectedStatus {w : Word} {i : Instr} {s : State} (hd : decode w = .command i)
    (hl : s.payload.length = i.payloadLength) :
    ∃ t r, exec i s = .next t ∧ t.outbox = s.outbox ++ [r]
      ∧ r.status = (expectedStatus s.ready w).code := by
  cases i with
  | init klen ivlen =>
    rw [expectedStatus_of_init _ hd]
    cases he : lengthError klen ivlen with
    | some e => exact ⟨_, _, exec_init_of_lengthError hl he, rfl, rfl⟩
    | none =>
      obtain ⟨rfl, rfl⟩ := (lengthError_eq_none_iff klen ivlen).mp he
      exact ⟨_, ⟨0x00#8, .nothing⟩, exec_init_proper hl, by simp, rfl⟩
  | step =>
    have hp : s.payload = [] := List.eq_nil_of_length_eq_zero hl
    rw [expectedStatus_of_step _ hd]
    cases hr : s.ready with
    | false => exact ⟨_, _, exec_step_of_not_ready hr hp, rfl, rfl⟩
    | true => exact ⟨_, ⟨0x00#8, .word (stepFunction s).2⟩, exec_step_of_ready hr hp, by simp, rfl⟩
  | apply len =>
    obtain rfl : s.payload.length = len := hl
    rw [expectedStatus_of_apply _ hd]
    cases hr : s.ready with
    | false => exact ⟨_, _, exec_apply_of_not_ready hr rfl, rfl, rfl⟩
    | true =>
      obtain ⟨t, hexec, happlied⟩ := exec_apply_of_ready s.payload hr
      exact ⟨t, _, hexec, happlied.outbox, rfl⟩

/-- Settles O10: a decoded command is covered by `exec_answers_expectedStatus`, and an illegal word, which
announces no payload, is answered ILLEGAL_COMMAND. -/
theorem statusFollowsPriority : Obligations.StatusFollowsPriority := by
  intro s w bytes rest hin hl
  cases hd : decode w with
  | command i =>
    rw [step_command hin hd]
    exact exec_answers_expectedStatus hd (hl.trans (payloadLength_of_command hd))
  | illegal why =>
    obtain rfl : bytes = [] :=
      List.eq_nil_of_length_eq_zero (hl.trans (payloadLength_of_illegal hd))
    rw [step_illegal hin hd, expectedStatus_of_illegal _ hd]
    exact ⟨_, _, answerIllegal_eq rfl, rfl, rfl⟩

/-! ### What an error leaves alone -/

/-- R152: a command whose response is not OK has done nothing but discard its payload and give the response,
which has no data. -/
theorem exec_error {i : Instr} {s t : State} {r : Response} (hn : exec i s = .next t)
    (ho : t.outbox = s.outbox ++ [r]) (hne : r.status ≠ 0x00#8) :
    r.data = .nothing ∧ t = (s.setPayload []).send r := by
  rcases exec_cases hn with ⟨e, _, rfl⟩ | ⟨_, rfl⟩ | ⟨_, _, rfl⟩ | ⟨_, _, rfl⟩ <;>
    obtain rfl : _ = r := by simpa using ho
  · exact ⟨rfl, rfl⟩
  · exact absurd rfl hne
  · exact absurd rfl hne
  · exact absurd rfl hne

/-- Settles O13: a command's error by `exec_error`, and the answer to an illegal word writes nothing else. -/
theorem errorsWriteNoState : Obligations.ErrorsWriteNoState := by
  intro s t w bytes rest r hin hs ho hne
  cases hd : decode w with
  | command i =>
    rw [step_command hin hd] at hs
    obtain ⟨hdata, rfl⟩ := exec_error hs ho hne
    exact ⟨hdata, rfl⟩
  | illegal why =>
    rw [step_illegal hin hd] at hs
    obtain ⟨_, rfl⟩ := withPayload_next hs
    obtain rfl : _ = r := by simpa using ho
    exact ⟨rfl, rfl⟩

/-! ### The idle engine and a loss of power -/

/-- Settles O8, by `step_idle`. -/
theorem idleEngineKeepsState : Obligations.IdleEngineKeepsState := fun _ => step_idle

/-- Settles O49: a loss of power and RST both end in `resetTo`, whose storage does not show. -/
theorem powerLossLeavesResetState : Obligations.PowerLossLeavesResetState := by
  intro s rest hin
  obtain ⟨x, hloss⟩ := losePower_eq (s.setInbox rest)
  obtain ⟨y, hreset⟩ := applyReset_eq (s.setInbox rest)
  refine ⟨resetTo x (s.setInbox rest), resetTo y (s.setInbox rest), ?_, ?_, rfl, rfl, rfl, rfl, rfl,
    indistinct_resetTo rfl rfl x y⟩
  · rw [step_powerLoss hin, hloss]
  · rw [step_reset rfl, ← hreset]
    rfl

end Sys2Proof.Machine
end

section
/-!
The obligations of `70_reset_and_hazards.md`: what a reset leaves (R170 to R172), that a proper host never
stops the engine (R174), the boot order (R175), and a STEP between APPLYs (R176).
-/

namespace Sys2Proof.Machine

/-! ### The boot order -/

/-- The invariant is about READY and the responses alone. -/
theorem bootInv_congr {s t : State} (hinv : BootInv s) (hr : t.ready = s.ready)
    (ho : t.outbox = s.outbox) : BootInv t := by
  rw [BootInv, hr, ho]
  exact hinv

theorem isOk_of_initOk {r : Response} (hr : r.initOk = true) : r.isOk = true := by
  obtain rfl : r = ⟨Status.code .ok, .nothing⟩ := of_decide_eq_true hr
  rfl

theorem isOk_error {e : Status} (he : e ≠ .ok) : (⟨e.code, .nothing⟩ : Response).isOk = false :=
  decide_eq_false fun hz => he ((code_eq_zero_iff e).mp hz)

/-- A response keeps the boot order if it is INIT's, or if INIT's is among those before it, as it is where the
engine was Ready; any other one must be an error that leaves READY = 0. The response is given from a state `u`
in which the command may have written the engine's own fields. -/
theorem bootInv_send {s u : State} {r : Response} (hinv : BootInv s) (ho : u.outbox = s.outbox)
    (hboot : u.ready = true ∨ r.isOk = true → s.ready = true ∨ r.initOk = true) :
    BootInv (u.send r) := by
  obtain ⟨hready, hfirst⟩ := hinv
  rw [BootInv, send_outbox, ho]
  refine ⟨fun hr => ?_, fun r' hfind => ?_⟩
  · rcases hboot (.inl hr) with hs | hinit
    · obtain ⟨r', hmem, hinit⟩ := hready hs
      exact ⟨r', List.mem_append_left _ hmem, hinit⟩
    · exact ⟨r, List.mem_append_right _ List.mem_cons_self, hinit⟩
  · cases hold : s.outbox.find? Response.isOk with
    | some r₀ =>
      obtain rfl : r₀ = r' := by simpa [List.find?_append, hold] using hfind
      exact hfirst _ hold
    | none =>
      obtain ⟨hok, rfl⟩ : r.isOk = true ∧ r = r' := by
        simpa [List.find?_append, hold, List.find?_singleton] using hfind
      refine (hboot (.inr hok)).resolve_left fun hs => ?_
      obtain ⟨r', hmem, hinit⟩ := hready hs
      exact List.find?_eq_none.mp hold r' hmem (isOk_of_initOk hinit)

/-- An error keeps the boot order: it leaves READY alone and is no OK answer (R152). -/
theorem bootInv_error {s : State} {e : Status} (hinv : BootInv s) (he : e ≠ .ok) :
    BootInv (s.send ⟨e.code, .nothing⟩) :=
  bootInv_send hinv rfl (Or.imp_right fun hok => by simp [isOk_error he] at hok)

/-- Every answer of a command keeps the boot order (R175): an error changes nothing of it, a proper INIT
gives the answer it asks for, and a STEP or an APPLY that ends with OK was given to a Ready engine. -/
theorem exec_bootInv {i : Instr} {s t : State} (hn : exec i s = .next t) (hinv : BootInv s) :
    BootInv t := by
  rcases exec_cases hn with ⟨e, he, rfl⟩ | ⟨_, rfl⟩ | ⟨hr, _, rfl⟩ | ⟨hr, _, rfl⟩
  · exact bootInv_error (bootInv_congr hinv rfl rfl) he
  · exact bootInv_send hinv (by simp) fun _ => .inr rfl
  · exact bootInv_send hinv (by simp) fun _ => .inl hr
  · exact bootInv_send hinv (by simp) fun _ => .inl hr

/-- A reset keeps the boot order: it clears READY and answers nothing (R170). -/
theorem bootInv_resetTo {s : State} (hinv : BootInv s) (x : Storage) : BootInv (resetTo x s) :=
  ⟨fun hr => by simp at hr, hinv.2⟩

/-- Settles O53, by the cases of a step: a command by `exec_bootInv`, the answer to an illegal word as an
error, and a reset by `bootInv_resetTo`. -/
theorem everyStepKeepsBootOrder : Obligations.EveryStepKeepsBootOrder := by
  intro s t hinv hs
  rcases step_cases hs with ⟨_, rfl⟩ | ⟨w, bytes, rest, i, _, _, _, hex⟩
    | ⟨w, rest, why, _, _, rfl⟩ | ⟨x, rest, y, _, _, rfl⟩
  · exact hinv
  · exact exec_bootInv hex (bootInv_congr hinv rfl rfl)
  · exact bootInv_error (e := .illegalCommand) (bootInv_congr hinv rfl rfl) (by decide)
  · exact bootInv_resetTo (bootInv_congr hinv rfl rfl) y

/-- Settles O54: after reset nothing has been answered and READY = 0. -/
theorem invariantsHoldAtReset : Obligations.InvariantsHoldAtReset := by
  refine ⟨⟨reset_payload, ?_⟩, ?_, ?_⟩ <;> simp

/-! ### Proper transactions -/

theorem exec_inbox {i : Instr} {s t : State} (hn : exec i s = .next t) : t.inbox = s.inbox := by
  rcases exec_cases hn with ⟨e, _, rfl⟩ | ⟨_, rfl⟩ | ⟨_, _, rfl⟩ | ⟨_, _, rfl⟩ <;> simp

/-- R60: a step takes the oldest input, if there is one, and no other. -/
theorem step_inbox {s t : State} (hs : step s = .next t) : t.inbox = s.inbox.tail := by
  rcases step_cases hs with ⟨hin, rfl⟩ | ⟨w, bytes, rest, i, hin, _, _, hex⟩
    | ⟨w, rest, why, hin, _, rfl⟩ | ⟨x, rest, y, hin, _, rfl⟩ <;> rw [hin]
  · rfl
  · exact exec_inbox hex
  · rfl
  · rfl

/-- R71, R156: with proper inputs pending a step answers a next state, whatever the oldest of them is. -/
theorem step_completes {s : State} (hproper : ∀ x ∈ s.inbox, x.wellFormed = true) :
    Completes (step s) := by
  cases hin : s.inbox with
  | nil => exact ⟨s, step_idle hin⟩
  | cons x rest =>
    have hx : x.wellFormed = true := hproper x (hin ▸ List.mem_cons_self)
    cases x with
    | command w bytes =>
      obtain ⟨t, _, hstep, _⟩ := statusFollowsPriority s w bytes rest hin (of_decide_eq_true hx)
      exact ⟨t, hstep⟩
    | commandAbandoned w bytes =>
      obtain ⟨y, hy⟩ := abandonCommand_of_length (s.setInbox rest) (of_decide_eq_true hx)
      exact ⟨_, (step_abandoned hin).trans hy⟩
    | reset => exact ⟨_, step_reset hin⟩
    | powerLoss => exact ⟨_, step_powerLoss hin⟩

/-- Settles O14, by induction on the number of steps: each completes (`step_completes`) and leaves pending
only inputs that were pending before it (`step_inbox`). -/
theorem properHostNeverStopsEngine : Obligations.ProperHostNeverStopsEngine := by
  intro n
  induction n with
  | zero => exact fun s _ => ⟨s, rfl⟩
  | succ n ih =>
    intro s hproper
    obtain ⟨u, hstep⟩ := step_completes hproper
    rw [run_succ n hstep]
    exact ih u fun x hx => hproper x (List.mem_of_mem_tail (step_inbox hstep ▸ hx))

/-! ### A STEP after a short APPLY -/

/-- Settles O45: the APPLY runs one refill, so P, Q and CNT are those 16 steps on (`applyCountsRefills`), and
STEP returns the word of the next one. -/
theorem stepAfterApplySkipsBufferedWords : Obligations.StepAfterApplySkipsBufferedWords := by
  intro s hr hc hpos hle
  obtain ⟨t, hexec, _, hrefill⟩ := applyCountsRefills s hr
  obtain ⟨hready, _, _, hpayload, _⟩ := applyFrame _ s t hexec
  have hcur : s.cur.val = 64 := congrArg Fin.val hc
  have hone : refillCount s.cur.val s.payload.length = 1 := by
    rw [refillCount]
    omega
  obtain ⟨_, hcnt, hp, hq, _⟩ := hrefill (by omega)
  rw [hone] at hcnt hp hq
  have hcnt16 : t.cnt = (runSteps 16 s).1.cnt :=
    BitVec.eq_of_toNat_eq (hcnt.trans (runSteps_cnt_toNat 16 s).symm)
  have hword : (stepFunction t).2 = keystreamWord s 16 := (stepFunction_congr hp hq hcnt16).1
  refine ⟨t, _, hexec, exec_step_of_ready (hready.trans hr) hpayload, ?_⟩
  rw [send_outbox, stepFunction_outbox, hword]

/-! ### What a reset leaves -/

/-- Settles O46: the fields are those of `State.reset`. -/
theorem resetValuesAsSpecified : Obligations.ResetValuesAsSpecified := ⟨rfl, rfl, rfl⟩

/-- Settles O47: RST ends in `resetTo` of some storage. -/
theorem resetInputGivesResetState : Obligations.ResetInputGivesResetState := by
  intro s rest hin
  obtain ⟨x, hreset⟩ := applyReset_eq (s.setInbox rest)
  exact ⟨x, (step_reset hin).trans (congrArg _ hreset)⟩

/-- Settles O48: an abandoned command and RST both end in `resetTo`, whose storage does not show, and a
malformed transaction is refused by `abandonCommand_of_length_ne`. -/
theorem abandonedCommandLeavesResetState : Obligations.AbandonedCommandLeavesResetState := by
  intro s w bytes rest hin
  refine ⟨fun hl => ?_, fun hl => (step_abandoned hin).trans (abandonCommand_of_length_ne _ hl)⟩
  obtain ⟨x, habandon⟩ := abandonCommand_of_length (s.setInbox rest) hl
  obtain ⟨y, hreset⟩ := resetInputGivesResetState { s with inbox := .reset :: rest } rest rfl
  exact ⟨_, _, (step_abandoned hin).trans habandon, hreset, rfl, rfl, rfl, rfl, rfl,
    indistinct_resetTo (s' := s.setInbox rest) rfl rfl x y⟩

end Sys2Proof.Machine
end
